-- ==== Sys2Proof/Word.lean ====
section
/-! DEFINITION. The word type of LS8-CORE: every register, memory cell, opcode and operand is one
unsigned byte (spec/10_state.md R22, spec/20_memory.md R53, spec/00_scope.md R8). -/

namespace Sys2Proof

/-- An unsigned 8-bit value; bit 7 is the most significant (R8). -/
abbrev Byte := BitVec 8

end Sys2Proof
end

