-- ==== Sys2Proof/Syntax.lean ====
section
/-! DEFINITION. The nine instructions of LS8-CORE with their operand bytes (spec/30_encoding.md R73-R75).
A register operand is kept as the whole byte of the encoding (R74, R76): the value 8 or more names no slot and
is an IllegalRegister fault of the instruction (spec/40_engine.md R106), so it is syntax the machine executes. -/

namespace Sys2Proof

/-- The handler names of the dispatch table (R103). -/
inductive Op where
  | hlt | ldi | prn | add | mul | push | pop | call | ret
deriving DecidableEq, Repr

/-- Every handler, in the order of the table (R73). -/
def Op.all : List Op := [.hlt, .ldi, .prn, .add, .mul, .push, .pop, .call, .ret]

/-- The two candidate operands the engine fetches after the opcode (R102). -/
inductive OperandPos where
  | operand1 | operand2
deriving DecidableEq, Repr

/-- Which register field of an instruction a register operand stands in (R74, R171). -/
inductive RegField where
  | rA | rB
deriving DecidableEq, Repr

/-- An instruction: one constructor per row of spec/opcode_table.json. -/
inductive Instr where
  /-- HLT (R130). -/
  | hlt
  /-- LDI rA, imm (R131). -/
  | ldi (rA imm : Byte)
  /-- PRN rA (R132). -/
  | prn (rA : Byte)
  /-- ADD rA, rB (R141). -/
  | add (rA rB : Byte)
  /-- MUL rA, rB (R142). -/
  | mul (rA rB : Byte)
  /-- PUSH rA (R151). -/
  | push (rA : Byte)
  /-- POP rA (R152). -/
  | pop (rA : Byte)
  /-- CALL rA (R160). -/
  | call (rA : Byte)
  /-- RET (R161). -/
  | ret
deriving DecidableEq, Repr

/-- The handler of an instruction. -/
def Instr.op : Instr → Op
  | .hlt => .hlt
  | .ldi _ _ => .ldi
  | .prn _ => .prn
  | .add _ _ => .add
  | .mul _ _ => .mul
  | .push _ => .push
  | .pop _ => .pop
  | .call _ => .call
  | .ret => .ret

end Sys2Proof
end

