-- ==== Sys2Proof/WellFormed.lean ====
section
/-! DEFINITION. Which instructions are well formed: every consumed register operand names a slot 0-7
(spec/30_encoding.md R75, R76). LDI's immediate is not checked (spec/40_engine.md R106). -/

namespace Sys2Proof

/-- The byte names a register slot (R76: "values 0-7 name R0-R7"). -/
def namesSlot (b : Byte) : Bool := decide (b.toNat < 8)

/-- Every register operand of the instruction names a slot. -/
def Instr.wellFormed : Instr → Bool
  | .hlt => true
  | .ldi rA _ => namesSlot rA
  | .prn rA => namesSlot rA
  | .add rA rB => namesSlot rA && namesSlot rB
  | .mul rA rB => namesSlot rA && namesSlot rB
  | .push rA => namesSlot rA
  | .pop rA => namesSlot rA
  | .call rA => namesSlot rA
  | .ret => true

end Sys2Proof
end

