-- ==== Sys2Proof/Decode.lean ====
section
/-! DEFINITION. Instruction encoding of LS8-CORE (spec/30_encoding.md): the opcode map as a parameter
constrained by R79 with the default of R73, the length of R71, the operand consumption of R75, the decoder, total
on any bytes, and the encoder. -/

namespace Sys2Proof

/-- The operand count in bits 7:6 of an opcode byte (R71). -/
def opCount (op : Byte) : Nat := (op >>> 6).toNat

/-- The instruction length computed from the opcode byte alone: `(opcode >> 6) + 1` (R71). -/
def opLen (op : Byte) : Nat := opCount op + 1

/-- The number of operand bytes a handler consumes (R75, R79). -/
def Op.operandCount : Op → Nat
  | .hlt => 0
  | .ldi => 2
  | .prn => 1
  | .add => 2
  | .mul => 2
  | .push => 1
  | .pop => 1
  | .call => 1
  | .ret => 0

/-- The number of bytes of an instruction: its opcode and its operands (R70, R73). -/
def Op.length (x : Op) : Nat := x.operandCount + 1

/-- The offset of a candidate operand from the opcode (R102: `p+1`, `p+2`). -/
def OperandPos.offset : OperandPos → Nat
  | .operand1 => 1
  | .operand2 => 2

/-- The handler consumes the operand (R75); an unrecognised opcode consumes none (R104). -/
def consumed (ins : Option Op) (k : OperandPos) : Bool :=
  match ins with
  | none => false
  | some x => decide (k.offset ≤ x.operandCount)

/-- An opcode map: the byte of each handler (the parameter `OPCODE_MAP`, R7, D3). -/
abbrev OpcodeMap := Op → Byte

/-- The constraint on any opcode map (R79): the nine bytes are distinct and bits 7:6 of each are its operand count. -/
structure OpcodeMap.Valid (m : OpcodeMap) : Prop where
  distinct : ∀ x y : Op, m x = m y → x = y
  count : ∀ x : Op, opCount (m x) = x.operandCount

/-- The default opcode map (R73). UNVERIFIED: bits 5:0 are the spec's general knowledge (D3); log entry 2. -/
def opcodeMap : OpcodeMap
  | .hlt => 0x01
  | .ldi => 0x82
  | .prn => 0x47
  | .add => 0xA0
  | .mul => 0xA2
  | .push => 0x45
  | .pop => 0x46
  | .call => 0x50
  | .ret => 0x11

/-- The handler whose byte is `op`, by an exact match of all eight bits; none when unrecognised (R76, R103). -/
def OpcodeMap.lookup (m : OpcodeMap) (op : Byte) : Option Op :=
  Op.all.find? fun x => m x == op

/-- What the decoder reads from the bytes at an instruction's address. -/
inductive Decoded where
  /-- A recognised instruction with its consumed operand bytes. -/
  | instr (i : Instr)
  /-- There is no opcode byte (R101). -/
  | noOpcode
  /-- The opcode is not in the map (R77, R105). -/
  | unrecognized (op : Byte)
  /-- A consumed operand byte is not there; `k` is the first such operand (R104). -/
  | missingOperand (k : OperandPos)
deriving DecidableEq, Repr

/-- One consumed operand byte (format F1, R74). -/
def decodeF1 (mk : Byte → Instr) : List Byte → Decoded
  | [] => .missingOperand .operand1
  | a :: _ => .instr (mk a)

/-- Two consumed operand bytes (formats F2R and F2I, R74). -/
def decodeF2 (mk : Byte → Byte → Instr) : List Byte → Decoded
  | [] => .missingOperand .operand1
  | [_] => .missingOperand .operand2
  | a :: b :: _ => .instr (mk a b)

/-- The instruction of a handler with its operands taken from the bytes after the opcode (R74, R75). -/
def decodeOperands (x : Op) (rest : List Byte) : Decoded :=
  match x with
  | .hlt => .instr .hlt
  | .ldi => decodeF2 .ldi rest
  | .prn => decodeF1 .prn rest
  | .add => decodeF2 .add rest
  | .mul => decodeF2 .mul rest
  | .push => decodeF1 .push rest
  | .pop => decodeF1 .pop rest
  | .call => decodeF1 .call rest
  | .ret => .instr .ret

/-- The decoder under an opcode map: total on any bytes (R78). -/
def decodeWith (m : OpcodeMap) : List Byte → Decoded
  | [] => .noOpcode
  | op :: rest =>
    match m.lookup op with
    | none => .unrecognized op
    | some x => decodeOperands x rest

/-- The decoder under the default opcode map. -/
def decode (bytes : List Byte) : Decoded := decodeWith opcodeMap bytes

/-- The operand bytes of an instruction in the order they follow the opcode (R70, R74). -/
def Instr.operandBytes : Instr → List Byte
  | .hlt => []
  | .ldi rA imm => [rA, imm]
  | .prn rA => [rA]
  | .add rA rB => [rA, rB]
  | .mul rA rB => [rA, rB]
  | .push rA => [rA]
  | .pop rA => [rA]
  | .call rA => [rA]
  | .ret => []

/-- The bytes of an instruction under an opcode map, at increasing addresses (R70, R74). -/
def encodeWith (m : OpcodeMap) (i : Instr) : List Byte := m i.op :: i.operandBytes

/-- The bytes of an instruction under the default opcode map. -/
def encode (i : Instr) : List Byte := encodeWith opcodeMap i

/-- The three bytes at the lowest addresses of an instruction numbered as spec/opcode_table.json numbers its bits: bits
7:0 are the opcode byte, bits 15:8 the byte after it, bits 23:16 the third (R70); bits from `nbits` up are zero. -/
def tableBytes (nbits w : Nat) : List Byte :=
  [BitVec.ofNat 8 (w % 2 ^ nbits), BitVec.ofNat 8 (w % 2 ^ nbits / 256), BitVec.ofNat 8 (w % 2 ^ nbits / 65536)]

/-- The instruction the decoder reads from a word of the opcode table. -/
def decodeTableWord (nbits w : Nat) : Option Instr :=
  match decode (tableBytes nbits w) with
  | .instr i => some i
  | .noOpcode => none
  | .unrecognized _ => none
  | .missingOperand _ => none

end Sys2Proof
end

