-- ==== Sys2Proof/Machine/Events.lean ====
section
/-! DEFINITION. The records of errors and output of LS8-CORE: fault records, report records and the events of
the output stream (spec/60_exceptions.md R170-R172, spec/10_state.md R29). -/

namespace Sys2Proof.Machine

/-- The error kinds of the taxonomy (R170). -/
inductive ErrorKind where
  | invalidAddress | stackEmpty | unsupportedALUOperation | unrecognizedInstruction | programNotFound | illegalRegister
deriving DecidableEq, Repr

/-- The numeric code of an error kind (R170, D14). -/
def ErrorKind.code : ErrorKind → Nat
  | .invalidAddress => 1
  | .stackEmpty => 2
  | .unsupportedALUOperation => 3
  | .unrecognizedInstruction => 4
  | .programNotFound => 5
  | .illegalRegister => 6

/-- The ALU's internal operation selector (R140): ADD, MUL, or any other value, which the ALU rejects (R143).
DESIGN CHOICE: the selector's encoding is not in the source, so another value carries a bare number; log entry 7. -/
inductive AluOp where
  | add
  | mul
  | other (selector : Nat)
deriving DecidableEq, Repr

/-- The cause of an InvalidAddress fault (R171). -/
inductive Cause where
  | opcodeFetch
  | operand (k : OperandPos)
  | stackPush
  | stackPop
  | returnAddress
deriving DecidableEq, Repr

/-- The `info` of a machine fault, one constructor per kind that can be a machine fault (R171). -/
inductive FaultInfo where
  | invalidAddress (addr : Int) (cause : Cause)
  | unsupportedALUOperation (aluop : AluOp)
  | unrecognizedInstruction (opcode : Byte)
  | illegalRegister (index : Byte) (field : RegField)
deriving DecidableEq, Repr

/-- The kind of a machine fault. -/
def FaultInfo.kind : FaultInfo → ErrorKind
  | .invalidAddress _ _ => .invalidAddress
  | .unsupportedALUOperation _ => .unsupportedALUOperation
  | .unrecognizedInstruction _ => .unrecognizedInstruction
  | .illegalRegister _ _ => .illegalRegister

/-- A fault record (R171). Its `kind` and `code` fields are determined by `info` and are given by the functions
`FaultRecord.kind` and `FaultRecord.code` (log entry 6). -/
structure FaultRecord where
  /-- The address of the faulting instruction. -/
  pc : Nat
  info : FaultInfo
deriving DecidableEq, Repr

/-- The `kind` field of a fault record (R171). -/
def FaultRecord.kind (f : FaultRecord) : ErrorKind := f.info.kind

/-- The `code` field of a fault record (R170, R171). -/
def FaultRecord.code (f : FaultRecord) : Nat := f.kind.code

/-- A report record (R172): the address is that of the fetched operand. -/
inductive ReportRecord where
  | stackEmpty (pc : Nat)
  | invalidAddress (addr pc : Nat) (cause : OperandPos)
deriving DecidableEq, Repr

/-- The error kind a report signals (R170, R172). -/
def ReportRecord.kind : ReportRecord → ErrorKind
  | .stackEmpty _ => .stackEmpty
  | .invalidAddress _ _ _ => .invalidAddress

/-- An event of the output stream (R29). -/
inductive Event where
  | print (v : Byte)
  | haltNotice
  | report (r : ReportRecord)
  | faultNotice (f : FaultRecord)
deriving DecidableEq, Repr

end Sys2Proof.Machine
end

