-- ==== Sys2Proof/Config.lean ====
section
/-! DEFINITION. The implementation parameters of LS8-CORE (spec/00_scope.md R7) that are not bytes of an encoding
(the opcode map is in Sys2Proof/Decode.lean), and the text the host prints for events, which the spec leaves open. -/

namespace Sys2Proof

/-- `ADDR_MAX` (R7): the last address. -/
def Config.addrMax : Nat := 255

/-- `SP_INIT`, also the empty-stack sentinel (R7, R24): a constant of the hardware. -/
def Config.spInit : Byte := 0xF4

/-- `PC_INIT` (R7, R26). -/
def Config.pcInit : Nat := 0

/-- `MAX_IMAGE` (R7, R202, D17): the longest image the host loads. -/
def Config.maxImage : Nat := 256

/-- `OUTPUT_TEXT` (R7, R184, D13): the host's wording of every event but Print. A free value: nothing constrains
it; log entry 8. -/
opaque Config.outputText : Machine.Event → String

end Sys2Proof
end

