-- ==== Sys2Proof/Machine/State.lean ====
section
/-! DEFINITION. The architectural state of LS8-CORE (spec/10_state.md R20), its values at construction
(spec/70_reset_and_hazards.md R200), and the reasons a step can stop. -/

namespace Sys2Proof.Machine

/-- Memory as its cells that are not zero, addresses strictly rising; an unlisted address of 0..255 reads as 0,
the value of every cell at construction (R21). `Memory.wf` states the form. -/
abbrev Memory := List Host.Cell

/-- A register slot 0-7 (R22). -/
abbrev Reg := Fin 8

/-- Slot 7, the stack pointer (R24). -/
def Reg.sp : Reg := 7

/-- The complete architectural state (R20). -/
structure State where
  /-- Memory (R21). -/
  mem : Memory
  /-- The register file R0..R7; R7 is the stack pointer (R22, R24). -/
  regs : Vector Byte 8
  /-- The program counter, a natural number that is never reduced (R26, D2). -/
  pc : Nat
  /-- The halted flag (R27). -/
  halted : Bool
  /-- The fault record (R28). -/
  fault : Option FaultRecord
  /-- The output stream, oldest event first (R29). -/
  out : List Event
deriving DecidableEq, Repr

/-- Why a step stops without a next state. A machine fault of the spec is NOT one of these: it has the effect of R175
and is a next state. -/
inductive Fault where
  /-- Raised by `step` in a halted state, which has no step (R100: "When `halted = true` there is no step: the state is
  final"). Safe: no behaviour of the hardware is left out. Log entry 3. -/
  | halted
deriving DecidableEq, Repr

/-- Why an instruction has no meaning. -/
inductive Refusal where
  /-- Raised by a refused arm of `exec` only, for an instruction without a meaning; no arm is refused. Safe. -/
  | notModelled (mnemonic : String)
deriving DecidableEq, Repr

/-- The outcome of a step. -/
abbrev Result := Host.Outcome State Fault Refusal

/-- The machine at construction, with `init` giving `REG_INIT[0..6]` (R25, R200, D10). -/
def State.construct (init : Vector Byte 7) : State where
  mem := []
  regs := init.push Config.spInit
  pc := Config.pcInit
  halted := false
  fault := none
  out := []

/-- The machine right after reset (R200). DESIGN CHOICE: R0..R6 are 0, the spec gives no value; log entry 1. -/
def State.reset : State := State.construct (Vector.replicate 7 0)

end Sys2Proof.Machine
end

