-- ==== Sys2Proof/Machine/Memory.lean ====
section
/-! DEFINITION. The memory of LS8-CORE: one cell, the canonical form, and the read and write primitives with their
range check (spec/20_memory.md R50-R52). -/

namespace Sys2Proof.Machine

/-- The verdict of a memory access: done, or the address is outside 0..255 (R9, R51, R52). -/
inductive Access (α : Type) where
  | ok (x : α)
  | invalid (addr : Int)
deriving DecidableEq, Repr

/-- The canonical form: addresses strictly rising and at most 255, no listed cell zero. -/
abbrev Memory.wf (m : Memory) : Prop :=
  m.Pairwise (fun x y => x.1 < y.1) ∧ ∀ c ∈ m, c.1 ≤ Config.addrMax ∧ c.2 ≠ 0

/-- The cell at an address; an unlisted cell is 0 (R21). -/
def Memory.cell : Memory → Nat → Byte
  | [], _ => 0
  | c :: rest, a => if c.1 = a then c.2 else Memory.cell rest a

/-- The memory with one cell set, in canonical form: setting a cell to 0 unlists it. -/
def Memory.set : Memory → Nat → Byte → Memory
  | [], a, v => if v = 0 then [] else [(a, v)]
  | c :: rest, a, v =>
    if a < c.1 then (if v = 0 then c :: rest else (a, v) :: c :: rest)
    else if a = c.1 then (if v = 0 then rest else (a, v) :: rest)
    else c :: Memory.set rest a v

/-- `0 <= a <= 255`: the address names a cell (R50, R51). -/
def inRange : Int → Bool
  | .ofNat n => decide (n ≤ Config.addrMax)
  | .negSucc _ => false

/-- `MemRead(a)` (R51). -/
def memRead (m : Memory) (a : Int) : Access Byte :=
  if inRange a then .ok (m.cell a.toNat) else .invalid a

/-- `MemWrite(a, v)` (R52). -/
def memWrite (m : Memory) (a : Int) (v : Byte) : Access Memory :=
  if inRange a then .ok (m.set a.toNat v) else .invalid a

end Sys2Proof.Machine
end

