-- ==== Sys2Proof/Machine/Flags.lean ====
section
/-! DEFINITION. The only flag of LS8-CORE is `halted` (spec/10_state.md R27): no carry, zero, overflow, sign or compare
flag exists and no instruction computes one. The flag is only ever set. -/

namespace Sys2Proof.Machine

/-- `halted <- true` (R27). -/
def State.halt (s : State) : State := { s with halted := true }

end Sys2Proof.Machine
end

