-- ==== Sys2Proof/Machine/Ops.lean ====
section
/-! DEFINITION. The named operations over the state that every rule uses (spec/00_scope.md R9): registers, the program
counter, memory, the output stream, reports (spec/60_exceptions.md R176) and machine faults (R175), and how an execute
phase ends a step (spec/40_engine.md R108, R109). -/

namespace Sys2Proof.Machine

/-- `R[i]` (R9). -/
def State.reg (s : State) (r : Reg) : Byte := s.regs[r]

/-- `R[i] <- v` (R9); no slot is hardwired (R22). -/
def State.setReg (s : State) (r : Reg) (v : Byte) : State := { s with regs := s.regs.set r v }

/-- `pc <- target` (R9). -/
def State.setPc (s : State) (target : Nat) : State := { s with pc := target }

/-- Phase 9: `pc <- p + n`, never reduced (R109, D2). -/
def State.advance (s : State) (n : Nat) : State := s.setPc (s.pc + n)

/-- `MemWrite(a, v)` on the state: an invalid write leaves it unchanged (R52). -/
def State.store (s : State) (a : Int) (v : Byte) : State :=
  match memWrite s.mem a v with
  | .ok m => { s with mem := m }
  | .invalid _ => s

/-- `emit e`: append an event to the output stream (R9, R29). -/
def State.emit (s : State) (e : Event) : State := { s with out := s.out ++ [e] }

/-- `report r`: the event and nothing else (R176). -/
def State.report (s : State) (r : ReportRecord) : State := s.emit (.report r)

/-- `raise Fault(kind, info)` at the instruction at `pc`: the notice, `halted` and `fault`, and no other write (R175).
There is no handler and no return from it (R179, R180). -/
def State.raise (s : State) (info : FaultInfo) : State :=
  { (s.emit (.faultNotice ⟨s.pc, info⟩)).halt with fault := some ⟨s.pc, info⟩ }

/-- How an execute phase ends: the state it computed, or a machine fault it raises. A fault carries no state, since
every fault is precise (R175). -/
inductive Phase where
  | done (s : State)
  | raise (info : FaultInfo)
deriving DecidableEq, Repr

/-- Phase 9 after a completed execute phase of an instruction other than CALL and RET (R109). -/
def Phase.thenAdvance (n : Nat) : Phase → Phase
  | .done s => .done (s.advance n)
  | .raise info => .raise info

/-- The end of the step: a fault has its effect on the state `s` the execute phase began in (R175). -/
def Phase.settle (s : State) : Phase → Result
  | .done t => .next t
  | .raise info => .next (s.raise info)

end Sys2Proof.Machine
end

