-- ==== Sys2Proof/Machine/Operands.lean ====
section
/-! DEFINITION. The operand forms of LS8-CORE: the register-index operand with its check (spec/30_encoding.md R76,
spec/40_engine.md R106) and the implicit stack addresses (spec/20_memory.md R56, spec/43_stack.md R150). -/

namespace Sys2Proof.Machine

/-- The slot a register-index byte names, used unchanged; none for 8-255 (R76, R78). -/
def slot (b : Byte) : Option Reg :=
  if h : b.toNat < 8 then some ⟨b.toNat, h⟩ else none

/-- Phase 6 for one register field: IllegalRegister if the byte names no slot, else go on with the slot (R106). -/
def withReg (field : RegField) (b : Byte) (s : State) (k : Reg → Result) : Result :=
  match slot b with
  | none => .next (s.raise (.illegalRegister b field))
  | some r => k r

/-- The address a push writes: SP - 1 as an integer, not reduced (R151, R160). -/
def State.pushAddr (s : State) : Int := (s.reg .sp).toNat - 1

/-- The byte at the top of the stack, `mem[R[7]]` (R152, R161). -/
def State.top (s : State) : Byte := s.mem.cell (s.reg .sp).toNat

end Sys2Proof.Machine
end

