-- ==== Sys2Proof/Machine/Alu.lean ====
section
/-! DEFINITION. The ALU and the instructions ADD and MUL (spec/42_alu.md). -/

namespace Sys2Proof.Machine

/-- The ALU's result on two unsigned bytes, reduced modulo 256; none for an unsupported selector (R140, R143, R144). -/
def aluResult (aluop : AluOp) (a b : Byte) : Option Byte :=
  match aluop with
  | .add => some (BitVec.ofNat 8 ((a.toNat + b.toNat) % 256))
  | .mul => some (BitVec.ofNat 8 ((a.toNat * b.toNat) % 256))
  | .other _ => none

/-- `apply(aluop, rA, rB)`: both registers are read before `R[rA]` is written (R140). -/
def aluApply (aluop : AluOp) (a b : Reg) (s : State) : Phase :=
  match aluResult aluop (s.reg a) (s.reg b) with
  | some r => .done (s.setReg a r)
  | none => .raise (.unsupportedALUOperation aluop)

/-- ADD rA, rB (R141): rA is checked before rB (R106). -/
def execAdd (rA rB : Byte) (s : State) : Result :=
  withReg .rA rA s fun a => withReg .rB rB s fun b =>
    ((aluApply .add a b s).thenAdvance Op.add.length).settle s

/-- MUL rA, rB (R142): rA is checked before rB (R106). -/
def execMul (rA rB : Byte) (s : State) : Result :=
  withReg .rA rA s fun a => withReg .rB rB s fun b =>
    ((aluApply .mul a b s).thenAdvance Op.mul.length).settle s

end Sys2Proof.Machine
end

