-- ==== Sys2Proof/Machine/CallReturn.lean ====
section
/-! DEFINITION. CALL and RET (spec/44_call_return.md): the only instructions that set pc themselves (R109). -/

namespace Sys2Proof.Machine

/-- Execute phase of CALL (R160): the target register is read after the decrement (D12). -/
def callPhase (r : Reg) (s : State) : Phase :=
  if s.pushAddr < 0 then .raise (.invalidAddress (-1) .stackPush)
  else if s.pc + 2 > Config.addrMax then .raise (.invalidAddress (s.pc + 2 : Nat) .returnAddress)
  else
    let t := s.setReg .sp (BitVec.ofInt 8 s.pushAddr)
    .done ((t.store s.pushAddr (BitVec.ofNat 8 (s.pc + 2))).setPc (t.reg r).toNat)

/-- CALL rA (R160). -/
def execCall (rA : Byte) (s : State) : Result :=
  withReg .rA rA s fun a => (callPhase a s).settle s

/-- Execute phase of RET (R161): no test for an empty stack. -/
def retPhase (s : State) : Phase :=
  if (s.reg .sp).toNat + 1 > Config.addrMax then .raise (.invalidAddress 256 .stackPop)
  else .done ((s.setReg .sp (BitVec.ofNat 8 ((s.reg .sp).toNat + 1))).setPc s.top.toNat)

/-- RET (R161). -/
def execRet (s : State) : Result := (retPhase s).settle s

end Sys2Proof.Machine
end

