-- ==== Sys2Proof/Machine/Stack.lean ====
section
/-! DEFINITION. PUSH and POP (spec/43_stack.md). -/

namespace Sys2Proof.Machine

/-- Execute phase of PUSH (R151): the register is read after the decrement (D12). -/
def pushPhase (r : Reg) (s : State) : Phase :=
  if s.pushAddr < 0 then .raise (.invalidAddress (-1) .stackPush)
  else
    let t := s.setReg .sp (BitVec.ofInt 8 s.pushAddr)
    .done (t.store s.pushAddr (t.reg r))

/-- PUSH rA (R151). -/
def execPush (rA : Byte) (s : State) : Result :=
  withReg .rA rA s fun a => ((pushPhase a s).thenAdvance Op.push.length).settle s

/-- SP after a POP's read, before its increment: the popped byte when the destination is R7 itself (R152, D12). -/
def popBase (r : Reg) (s : State) : Byte := if r = .sp then s.top else s.reg .sp

/-- Execute phase of POP (R152). -/
def popPhase (r : Reg) (s : State) : Phase :=
  if s.reg .sp = Config.spInit then .done (s.report (.stackEmpty s.pc))
  else if (popBase r s).toNat + 1 > Config.addrMax then .raise (.invalidAddress 256 .stackPop)
  else .done ((s.setReg r s.top).setReg .sp (BitVec.ofNat 8 ((popBase r s).toNat + 1)))

/-- POP rA (R152): the register check comes before the empty test (R177). -/
def execPop (rA : Byte) (s : State) : Result :=
  withReg .rA rA s fun a => ((popPhase a s).thenAdvance Op.pop.length).settle s

end Sys2Proof.Machine
end

