-- ==== Sys2Proof/Machine/System.lean ====
section
/-! DEFINITION. HLT, LDI and PRN (spec/41_system_and_data.md). -/

namespace Sys2Proof.Machine

/-- Execute phase of HLT (R130). -/
def hltPhase (s : State) : Phase := .done (s.emit .haltNotice).halt

/-- HLT (R130, R110): pc still advances (R109). -/
def execHlt (s : State) : Result := ((hltPhase s).thenAdvance Op.hlt.length).settle s

/-- Execute phase of LDI (R131). -/
def ldiPhase (a : Reg) (imm : Byte) (s : State) : Phase := .done (s.setReg a imm)

/-- LDI rA, imm (R131). -/
def execLdi (rA imm : Byte) (s : State) : Result :=
  withReg .rA rA s fun a => ((ldiPhase a imm s).thenAdvance Op.ldi.length).settle s

/-- Execute phase of PRN (R132). -/
def prnPhase (a : Reg) (s : State) : Phase := .done (s.emit (.print (s.reg a)))

/-- PRN rA (R132). -/
def execPrn (rA : Byte) (s : State) : Result :=
  withReg .rA rA s fun a => ((prnPhase a s).thenAdvance Op.prn.length).settle s

end Sys2Proof.Machine
end

