-- ==== Sys2Proof/Machine/Dispatch.lean ====
section
/-! DEFINITION. Phase 7, dispatch (spec/40_engine.md R107): one arm per instruction. -/

namespace Sys2Proof.Machine

/-- Phases 6 to 9 of the step for a decoded instruction, with pc still the instruction's address (R106-R109). -/
def exec (i : Instr) (s : State) : Host.Outcome State Fault Refusal :=
  match i with
  | .hlt => Sys2Proof.Machine.execHlt s
  | .ldi rA imm => Sys2Proof.Machine.execLdi rA imm s
  | .prn rA => Sys2Proof.Machine.execPrn rA s
  | .add rA rB => Sys2Proof.Machine.execAdd rA rB s
  | .mul rA rB => Sys2Proof.Machine.execMul rA rB s
  | .push rA => Sys2Proof.Machine.execPush rA s
  | .pop rA => Sys2Proof.Machine.execPop rA s
  | .call rA => Sys2Proof.Machine.execCall rA s
  | .ret => Sys2Proof.Machine.execRet s

end Sys2Proof.Machine
end

