-- ==== Sys2Proof/Machine/Engine.lean ====
section
/-! DEFINITION. The fetch-decode-execute step under any opcode map (spec/40_engine.md R100-R105), and placing bytes at
an address (spec/70_reset_and_hazards.md R202). -/

namespace Sys2Proof.Machine

/-- The bytes of the leading accesses that were in range. -/
def readBytes : List (Access Byte) → List Byte
  | .ok v :: rest => v :: readBytes rest
  | .invalid _ :: _ => []
  | [] => []

/-- Phases 1 and 2: the opcode byte and the two candidate operand bytes, as far as they are in range (R101, R102). -/
def State.fetch (s : State) : List Byte :=
  readBytes [memRead s.mem s.pc, memRead s.mem (s.pc + 1 : Nat), memRead s.mem (s.pc + 2 : Nat)]

/-- Phase 4 for an operand that is not consumed: a report if it is out of range, and the step goes on (R104). -/
def State.reportOperand (ins : Option Op) (s : State) (k : OperandPos) : State :=
  match memRead s.mem (s.pc + k.offset : Nat) with
  | .ok _ => s
  | .invalid _ =>
    if consumed ins k then s else s.report (.invalidAddress (s.pc + k.offset) s.pc k)

/-- Phase 4 for both operands, operand1 then operand2 (R104). -/
def State.reportOperands (s : State) (ins : Option Op) : State :=
  [OperandPos.operand1, OperandPos.operand2].foldl (State.reportOperand ins) s

/-- One step of a running machine: the priority of errors is that of R177. -/
def runningStep (m : OpcodeMap) (s : State) : Result :=
  match decodeWith m s.fetch with
  | .noOpcode => .next (s.raise (.invalidAddress s.pc .opcodeFetch))
  | .missingOperand k => .next (s.raise (.invalidAddress (s.pc + k.offset : Nat) (.operand k)))
  | .unrecognized op => .next ((s.reportOperands none).raise (.unrecognizedInstruction op))
  | .instr i => exec i (s.reportOperands (some i.op))

/-- One step under an opcode map; a halted machine has none (R100). -/
def stepWith (m : OpcodeMap) (s : State) : Result :=
  if s.halted then .fault .halted else runningStep m s

/-- Place bytes at increasing addresses from `a`; a byte past 255 has no cell (R52). -/
def State.place (s : State) (a : Nat) : List Byte → State
  | [] => s
  | b :: rest => (s.store a b).place (a + 1) rest

end Sys2Proof.Machine
end

