-- ==== Sys2Proof/Machine/Step.lean ====
section
/-! DEFINITION. The step of the machine under the default opcode map (spec/40_engine.md R111). -/

namespace Sys2Proof.Machine

/-- One step (R111). -/
def step (s : State) : Host.Outcome State Fault Refusal := stepWith opcodeMap s

/-- The state with the bytes of a word of the opcode table placed at pc, where the step fetches (log entry 9). -/
def State.withFetchWord (s : State) (nbits w : Nat) : State := s.place s.pc (tableBytes nbits w)

end Sys2Proof.Machine
end

