-- ==== Sys2Proof/Machine/HostPort.lean ====
section
/-! DEFINITION. What the host does to the core: load an image once after construction, run, observe the output and its
rendering (spec/70_reset_and_hazards.md R202, R209, spec/40_engine.md R112, spec/60_exceptions.md R184). -/

namespace Sys2Proof.Machine

/-- Load an image at address 0; an image longer than 256 bytes is refused (R202, D17). -/
def State.load (s : State) (image : List Byte) : Option State :=
  if image.length ≤ Config.maxImage then some (s.place 0 image) else none

/-- The run: step while not halted, and answer the final state; none when `fuel` steps do not reach a halt, which is not
an end of run (R112, D21). -/
def runWith (m : OpcodeMap) : Nat → State → Option State
  | 0, s => if s.halted then some s else none
  | fuel + 1, s =>
    if s.halted then some s else
      match stepWith m s with
      | .next t => runWith m fuel t
      | .fault _ => none
      | .refused _ => none

/-- The run under the default opcode map. -/
def run (fuel : Nat) (s : State) : Option State := runWith opcodeMap fuel s

/-- The text the host prints for an event: Print is the decimal numeral and a line end, the rest is open (R184, D13). -/
def Event.render : Event → String
  | .print v => toString v.toNat ++ "\n"
  | e => Config.outputText e

/-- What the host prints for the output stream so far (R209). -/
def State.rendered (s : State) : String := String.join (s.out.map Event.render)

end Sys2Proof.Machine
end

