-- ==== Sys2Proof/Machine/Pseudocode.lean ====
section
/-! DEFINITION. The pseudocode of the whole step, transcribed line by line from spec/40_engine.md R111, beside the
machine's own step, so that the two can be compared. Nothing of the machine calls this file. -/

namespace Sys2Proof.Machine

/-- A fault or report of a phase before the execute phase: go on, or raise on the state with the reports so far. -/
inductive Verdict where
  | go (s : State)
  | raise (s : State) (info : FaultInfo)
deriving DecidableEq, Repr

/-- The loop `for k in [1, 2]` of R111 (R104). -/
def operandVerdicts (ins : Option Op) (s : State) : List OperandPos → Verdict
  | [] => .go s
  | k :: ks =>
    match memRead s.mem (s.pc + k.offset : Nat) with
    | .ok _ => operandVerdicts ins s ks
    | .invalid a =>
      if ins ≠ none ∧ consumed ins k = true then .raise s (.invalidAddress a (.operand k))
      else operandVerdicts ins (s.report (.invalidAddress a.toNat s.pc k)) ks

/-- `register_fields(ins)` of R111 with the operand each field is read from (R74). -/
def registerFields : Op → List (RegField × OperandPos)
  | .hlt => []
  | .ret => []
  | .ldi => [(.rA, .operand1)]
  | .prn => [(.rA, .operand1)]
  | .push => [(.rA, .operand1)]
  | .pop => [(.rA, .operand1)]
  | .call => [(.rA, .operand1)]
  | .add => [(.rA, .operand1), (.rB, .operand2)]
  | .mul => [(.rA, .operand1), (.rB, .operand2)]

/-- The loop `for f in register_fields(ins)` of R111 (R106): the first field whose value is 8 or more. -/
def illegalField (operand : OperandPos → Byte) : List (RegField × OperandPos) → Option FaultInfo
  | [] => none
  | (f, k) :: rest =>
    if 8 ≤ (operand k).toNat then some (.illegalRegister (operand k) f) else illegalField operand rest

/-- `execute(ins, rA, rB, imm)` of R111 (R108): the execute phases of 41-44. -/
def executePhase (x : Op) (rA rB : Reg) (imm : Byte) (s : State) : Phase :=
  match x with
  | .hlt => hltPhase s
  | .ldi => ldiPhase rA imm s
  | .prn => prnPhase rA s
  | .add => aluApply .add rA rB s
  | .mul => aluApply .mul rA rB s
  | .push => pushPhase rA s
  | .pop => popPhase rA s
  | .call => callPhase rA s
  | .ret => retPhase s

/-- The byte of an access; 0 stands for a byte that was not read, which no phase below uses. -/
def Access.byte : Access Byte → Byte
  | .ok v => v
  | .invalid _ => 0

/-- `pc <- p + (op[7:6] + 1)` unless the instruction is CALL or RET (R109). -/
def advanceUnlessTransfer (x : Op) (op : Byte) (r : Phase) : Phase :=
  if x = .call ∨ x = .ret then r else r.thenAdvance (opLen op)

/-- `step(s)` of R111 for a state that is not halted. -/
def pseudoStep (m : OpcodeMap) (s : State) : Result :=
  match memRead s.mem s.pc with
  | .invalid a => .next (s.raise (.invalidAddress a .opcodeFetch))
  | .ok op =>
    let operand := fun k : OperandPos => (memRead s.mem (s.pc + k.offset : Nat)).byte
    let ins := m.lookup op
    match operandVerdicts ins s [.operand1, .operand2] with
    | .raise t info => .next (t.raise info)
    | .go t =>
      match ins with
      | none => .next (t.raise (.unrecognizedInstruction op))
      | some x =>
        match illegalField operand (registerFields x) with
        | some info => .next (t.raise info)
        | none =>
          let rA := Fin.ofNat 8 (operand .operand1).toNat
          let rB := Fin.ofNat 8 (operand .operand2).toNat
          (advanceUnlessTransfer x op (executePhase x rA rB (operand .operand2) t)).settle t

end Sys2Proof.Machine
end

