-- ==== Sys2Proof/Safety.lean ====
section
/-! DEFINITION. What counts as a good state and a good end of a run of LS8-CORE, and the words the statements use:
the invariants of spec/40_engine.md R113, the ends of spec/70_reset_and_hazards.md R210, the register tables of
spec/10_state.md R23, the operand reports of spec/40_engine.md R104. -/

namespace Sys2Proof.Machine

/-- The events that end a run (R29, R210). -/
def Event.ends : Event → Bool
  | .print _ => false
  | .haltNotice => true
  | .report _ => false
  | .faultNotice _ => true

/-- The last event of a halted machine: the notice of its fault record, or the halt notice when there is none
(R28, R113). -/
def lastNotice : Option FaultRecord → Event
  | none => .haltNotice
  | some f => .faultNotice f

/-- The invariants of every reachable state (R113), with the canonical form of memory, the pc bound for halted states
too, and what a fault record may say (R143, R175). -/
structure Inv (s : State) : Prop where
  /-- Memory is in canonical form. -/
  memWf : s.mem.wf
  /-- `fault ≠ none` implies `halted = true`. -/
  faultHalts : s.fault ≠ none → s.halted = true
  /-- `0 <= pc <= 256`. -/
  pcBound : s.pc ≤ 256
  /-- A running machine has emitted no notice that ends a run. -/
  runningOut : s.halted = false → ∀ e ∈ s.out, e.ends = false
  /-- A halted machine's only such notice is its last event, the one its fault record names. -/
  haltedOut : s.halted = true → ∃ earlier : List Event, (∀ e ∈ earlier, e.ends = false) ∧ s.out = earlier ++ [lastNotice s.fault]
  /-- The fault record names the instruction pc still points at, and no unsupported ALU operation. -/
  faultRecord : ∀ f, s.fault = some f → f.pc = s.pc ∧ f.kind ≠ .unsupportedALUOperation

/-- A normal end of a run (R210). -/
def NormalEnd (s : State) : Prop := s.halted = true ∧ s.fault = none

/-- A faulted end of a run (R210). -/
def FaultedEnd (s : State) : Prop := s.halted = true ∧ s.fault ≠ none

/-- The states a machine can be in after the host has loaded an image, under any register draw and any image
(R203, R112). -/
inductive Reachable (m : OpcodeMap) : State → Prop where
  | boot (init : Vector Byte 7) (image : List Byte) (s : State) : (State.construct init).load image = some s → Reachable m s
  | step (s t : State) : Reachable m s → stepWith m s = .next t → Reachable m t

/-- The state after a machine fault with this `info` (R175), written out field by field. -/
def faulted (s : State) (info : FaultInfo) : State :=
  { mem := s.mem, regs := s.regs, pc := s.pc, halted := true, fault := some ⟨s.pc, info⟩,
    out := s.out ++ [.faultNotice ⟨s.pc, info⟩] }

/-- The reports of an instruction at `p` that consumes `count` operands (R104): one for each candidate operand past 255
that is not consumed, operand1 first. -/
def unreadReports (p count : Nat) : List Event :=
  (if count < 1 ∧ 255 < p + 1 then [.report (.invalidAddress (p + 1) p .operand1)] else []) ++
  (if count < 2 ∧ 255 < p + 2 then [.report (.invalidAddress (p + 2) p .operand2)] else [])

/-- The state with events appended to the output stream. -/
def withEvents (s : State) (es : List Event) : State := { s with out := s.out ++ es }

/-- The register fields of an instruction in the order they are checked (R106): rA, then rB of ADD and MUL. -/
def registerOperands : Instr → List (RegField × Byte)
  | .hlt => []
  | .ldi rA _ => [(.rA, rA)]
  | .prn rA => [(.rA, rA)]
  | .add rA rB => [(.rA, rA), (.rB, rB)]
  | .mul rA rB => [(.rA, rA), (.rB, rB)]
  | .push rA => [(.rA, rA)]
  | .pop rA => [(.rA, rA)]
  | .call rA => [(.rA, rA)]
  | .ret => []

/-- The slots an instruction may read (R23), by slot number. -/
def readsSlots : Instr → List Nat
  | .hlt => []
  | .ldi _ _ => []
  | .prn rA => [rA.toNat]
  | .add rA rB => [rA.toNat, rB.toNat]
  | .mul rA rB => [rA.toNat, rB.toNat]
  | .push rA => [7, rA.toNat]
  | .pop _ => [7]
  | .call rA => [7, rA.toNat]
  | .ret => [7]

/-- The slots an instruction may write (R23), by slot number. -/
def writesSlots : Instr → List Nat
  | .hlt => []
  | .ldi rA _ => [rA.toNat]
  | .prn _ => []
  | .add rA _ => [rA.toNat]
  | .mul rA _ => [rA.toNat]
  | .push _ => [7]
  | .pop rA => [rA.toNat, 7]
  | .call _ => [7]
  | .ret => [7]

/-- The address an instruction stores to, if it is one that stores (R56): the stack slot below SP. -/
def storesAt (i : Instr) (s : State) : Option Int :=
  match i with
  | .hlt => none
  | .ldi _ _ => none
  | .prn _ => none
  | .add _ _ => none
  | .mul _ _ => none
  | .push _ => some s.pushAddr
  | .pop _ => none
  | .call _ => some s.pushAddr
  | .ret => none

/-- Memory from address `a` on holds these bytes. -/
def holdsBytes (s : State) (a : Nat) (bytes : List Byte) : Prop :=
  ∀ j (h : j < bytes.length), memRead s.mem (a + j : Nat) = .ok bytes[j]

/-- `n` times the same instruction, each executed from the state the one before left; none once one halts the machine
or gives no next state. -/
def repeated (i : Instr) : Nat → State → Option State
  | 0, s => some s
  | n + 1, s =>
    match exec i s with
    | .next t => if t.halted then none else repeated i n t
    | .fault _ => none
    | .refused _ => none

end Sys2Proof.Machine
end

