-- ==== Sys2Proof/Certificates/Slice0/Obligations.lean ====
section
/-! DEFINITION. The statements about LS8-CORE, from the numbered rules of spec/. Statements that quantify over an opcode
map `m` hold for every map meeting R79 (or for every map where no such hypothesis stands), so for the default map of
the fixed names `step` and `decode`. A machine fault is a next state (R175); `faulted s info` of Sys2Proof/Safety.lean
writes that state out. -/

open Sys2Proof Sys2Proof.Machine

/-! ## Encoding -/

/-- R70, R73, R74, R76, R79: decoding an encoded instruction, whatever bytes follow it, gives it back, with every operand
at every byte value and under every opcode map meeting R79. -/
def Obligations.DecodeOfEncodeIsTheInstruction : Prop :=
  ∀ m : OpcodeMap, m.Valid → ∀ (i : Instr) (rest : List Byte), decodeWith m (encodeWith m i ++ rest) = .instr i

/-- R74, R76: bytes that decode to an instruction begin with that instruction's encoding, so a word has one meaning and no
bit of it is dropped; any opcode map. -/
def Obligations.BytesDecodedBeginWithTheEncoding : Prop :=
  ∀ (m : OpcodeMap) (bytes : List Byte) (i : Instr), decodeWith m bytes = .instr i →
    ∃ rest, bytes = encodeWith m i ++ rest

/-- R73, R74: one word of each instruction, written out from the encoding tables, under the default map. -/
def Obligations.TableWordsDecode : Prop :=
  decode [0b00000001] = .instr .hlt ∧
  decode [0b10000010, 0b00000011, 0b11111111] = .instr (.ldi 3 255) ∧
  decode [0b01000111, 0b00000111] = .instr (.prn 7) ∧
  decode [0b10100000, 0b00000001, 0b00000010] = .instr (.add 1 2) ∧
  decode [0b10100010, 0b00000100, 0b00000101] = .instr (.mul 4 5) ∧
  decode [0b01000101, 0b00000110] = .instr (.push 6) ∧
  decode [0b01000110, 0b00000010] = .instr (.pop 2) ∧
  decode [0b01010000, 0b00000001] = .instr (.call 1) ∧
  decode [0b00010001] = .instr .ret

/-- R77 under every map meeting R79: exactly 247 of the 256 byte values are unrecognised, among them every byte with bits
7:6 = 0b11, and the decoder names each of them. -/
def Obligations.UnrecognizedOpcodesAre247 : Prop :=
  ∀ m : OpcodeMap, m.Valid →
    (Finset.univ.filter fun n : Fin 256 => m.lookup (BitVec.ofFin n) = none).card = 247 ∧
    (∀ op : Byte, op.toNat / 64 = 3 → m.lookup op = none) ∧
    (∀ (op : Byte) (rest : List Byte), m.lookup op = none → decodeWith m (op :: rest) = .unrecognized op)

/-- R71: the length is computed from bits 7:6 of the opcode byte alone: it is those bits plus one, it is the number of bytes
of the instruction decoded, and no recognised opcode has bits 7:6 = 3. -/
def Obligations.LengthComesFromTopBits : Prop :=
  (∀ op : Byte, opLen op = op.toNat / 64 + 1) ∧
  ∀ m : OpcodeMap, m.Valid → ∀ (op : Byte) (rest : List Byte) (i : Instr), decodeWith m (op :: rest) = .instr i →
    (encodeWith m i).length = opLen op ∧ op.toNat / 64 ≤ 2

/-! ## Memory -/

/-- R51, R52: a write inside 0..255 is done and read back, every other address reads as before, and an address outside is
invalid for both primitives and leaves the whole state unchanged. The premise is the canonical form, kept by every
operation. -/
def Obligations.MemoryReadsWhatWasWritten : Prop :=
  ∀ (m : Memory) (a : Int) (v : Byte), m.wf →
    (0 ≤ a ∧ a ≤ 255 → memRead m a = .ok (m.cell a.toNat) ∧
      ∃ m', memWrite m a v = .ok m' ∧ memRead m' a = .ok v ∧ ∀ b : Int, b ≠ a → memRead m' b = memRead m b) ∧
    (¬ (0 ≤ a ∧ a ≤ 255) → memRead m a = .invalid a ∧ memWrite m a v = .invalid a ∧ ∀ s : State, s.store a v = s)

/-- The model's form of memory (R21): memories in canonical form that read alike at every address are equal data. -/
def Obligations.MemoriesReadingAlikeAreEqual : Prop :=
  ∀ m m' : Memory, m.wf → m'.wf → (∀ a : Int, memRead m a = memRead m' a) → m = m'

/-! ## The step -/

/-- R100, R102, R107: the step of a running machine whose bytes at pc decode to an instruction is the instruction's execution
after the reports of its unread operands; `step` is `stepWith` under the default map. -/
def Obligations.StepRunsTheDecodedInstruction : Prop :=
  ∀ (s : State) (i : Instr), s.halted = false → decode s.fetch = .instr i →
    step s = exec i (withEvents s (unreadReports s.pc i.op.operandCount))

/-- R62, R102-R104, R107: a running machine whose memory holds an instruction's encoding from pc on executes that
instruction, with the operands latched from it, after the reports of the candidate operands past 255. -/
def Obligations.InstructionInMemoryIsExecuted : Prop :=
  ∀ (m : OpcodeMap), m.Valid → ∀ (s : State) (i : Instr), s.halted = false → holdsBytes s s.pc (encodeWith m i) →
    stepWith m s = exec i (withEvents s (unreadReports s.pc i.operandBytes.length)) ∧
    (s.pc ≤ 253 → withEvents s (unreadReports s.pc i.operandBytes.length) = s)

/-- R100, R78: a running machine always takes a step to a next state, whatever its memory holds; a halted machine takes
none (the model's answer is the fault `halted`, log entry 3). -/
def Obligations.RunningMachineAlwaysSteps : Prop :=
  ∀ (m : OpcodeMap) (s : State),
    (s.halted = false → ∃ t, stepWith m s = .next t) ∧ (s.halted = true → stepWith m s = .fault .halted)

/-- R101 (D5): a fetch at pc >= 256 raises InvalidAddress with cause OpcodeFetch and does nothing else; otherwise the opcode is
the byte at pc. -/
def Obligations.OpcodeFetchPastMemoryFaults : Prop :=
  ∀ (m : OpcodeMap) (s : State), s.halted = false →
    (256 ≤ s.pc → stepWith m s = .next (faulted s (.invalidAddress s.pc .opcodeFetch))) ∧
    (s.pc < 256 → ∃ op rest, memRead s.mem s.pc = .ok op ∧ s.fetch = op :: rest)

/-- R104 (D4): at a recognised opcode, the first consumed operand past 255 raises InvalidAddress naming it and the step ends
there; when every consumed operand is in memory, each candidate operand past 255 is only reported (operand1 first) and
the instruction runs; an unrecognised opcode consumes none, so its operands are only reported. -/
def Obligations.OperandAddressVerdicts : Prop :=
  ∀ (m : OpcodeMap), m.Valid → ∀ (s : State) (op : Byte), s.halted = false → memRead s.mem s.pc = .ok op →
    (∀ (x : Op) (k : OperandPos), m.lookup op = some x → k.offset ≤ x.operandCount → 255 < s.pc + k.offset →
      (∀ j : OperandPos, j.offset < k.offset → s.pc + j.offset ≤ 255) →
      stepWith m s = .next (faulted s (.invalidAddress (s.pc + k.offset : Nat) (.operand k)))) ∧
    (∀ x : Op, m.lookup op = some x → s.pc + x.operandCount ≤ 255 →
      ∃ i : Instr, i.op = x ∧ holdsBytes s s.pc (encodeWith m i) ∧
        stepWith m s = exec i (withEvents s (unreadReports s.pc x.operandCount))) ∧
    (m.lookup op = none → ∃ t, stepWith m s = .next t ∧ ∃ e, t.out = s.out ++ unreadReports s.pc 0 ++ [e])

/-- R105: an unrecognised opcode raises UnrecognizedInstruction naming the opcode and its pc, after the operand reports:
pc, memory and registers keep their values and the machine is halted. -/
def Obligations.UnrecognizedOpcodeFaults : Prop :=
  ∀ (m : OpcodeMap) (s : State) (op : Byte), s.halted = false → memRead s.mem s.pc = .ok op → m.lookup op = none →
    stepWith m s = .next { s with
      halted := true
      fault := some ⟨s.pc, .unrecognizedInstruction op⟩
      out := s.out ++ unreadReports s.pc 0 ++ [.faultNotice ⟨s.pc, .unrecognizedInstruction op⟩] }

/-- R106 (D6): the first register operand, in the order rA then rB, whose byte is 8 or more raises IllegalRegister naming the
byte and the field, for every instruction with a register operand; with none such, and the immediate of LDI whatever it
is, no IllegalRegister is recorded. -/
def Obligations.IllegalRegisterOperandFaults : Prop :=
  (∀ (i : Instr) (s : State) (before after : List (RegField × Byte)) (f : RegField) (b : Byte),
    registerOperands i = before ++ (f, b) :: after → (∀ x ∈ before, x.2.toNat < 8) → 8 ≤ b.toNat →
    exec i s = .next (faulted s (.illegalRegister b f))) ∧
  (∀ (i : Instr) (s t : State), (∀ x ∈ registerOperands i, x.2.toNat < 8) → exec i s = .next t → s.fault = none →
    ∀ f, t.fault = some f → f.kind ≠ .illegalRegister)

/-- R175 (D11, D19): a step that ends in a machine fault writes no register, no memory cell and not pc; it sets `halted`, records the
fault at the instruction's pc, and emits the notice last, after operand reports only. Premise: no fault recorded before,
as the invariant says of a running machine. -/
def Obligations.MachineFaultsArePrecise : Prop :=
  ∀ (m : OpcodeMap) (s t : State) (f : FaultRecord), s.fault = none → stepWith m s = .next t → t.fault = some f →
    t.mem = s.mem ∧ t.regs = s.regs ∧ t.pc = s.pc ∧ t.halted = true ∧ f.pc = s.pc ∧
    ∃ n, t.out = s.out ++ unreadReports s.pc n ++ [.faultNotice f]

/-- R177 (derived there), R29: a step only appends to the output: at most two operand reports and then at most one other
event, and the machine is halted after it exactly when that event is the halt notice or a fault notice. -/
def Obligations.StepEventsAreReportsThenOneEvent : Prop :=
  ∀ (m : OpcodeMap) (s t : State), stepWith m s = .next t →
    ∃ (n : Nat) (es : List Event), t.out = s.out ++ unreadReports s.pc n ++ es ∧ (unreadReports s.pc n).length ≤ 2 ∧
      es.length ≤ 1 ∧ (t.halted = true ↔ ∃ e ∈ es, e.ends = true) ∧ (∀ f, .faultNotice f ∈ es → t.fault = some f)

/-- R27: the flag is false at construction; HLT sets it; every machine fault sets it; a step that sets it is one or the
other; and nothing clears it, since a halted machine has no step. -/
def Obligations.HaltedIsSetByHltAndFaultsOnly : Prop :=
  (∀ init : Vector Byte 7, (State.construct init).halted = false) ∧
  (∀ (m : OpcodeMap) (s t : State), stepWith m s = .next t → s.halted = false) ∧
  (∀ (m : OpcodeMap), m.Valid → ∀ s : State, s.halted = false → memRead s.mem s.pc = .ok (m .hlt) →
    ∃ t, stepWith m s = .next t ∧ t.halted = true ∧ t.fault = s.fault) ∧
  (∀ (m : OpcodeMap) (s t : State), s.fault = none → stepWith m s = .next t →
    (t.fault ≠ none → t.halted = true) ∧
    (t.halted = true → t.fault ≠ none ∨ memRead s.mem s.pc = .ok (m .hlt)))

/-- R109 (D2): after a completed step, pc is p + (op[7:6] + 1) for the fetched opcode byte of every instruction but CALL and RET,
HLT and an empty POP included; CALL leaves pc at the value of its register (as the execute phase left it) and RET at the
byte it popped, with nothing added. -/
def Obligations.PcAdvancesByOpcodeLength : Prop :=
  ∀ (m : OpcodeMap), m.Valid → ∀ (s t : State) (op : Byte) (x : Op), s.fault = none → memRead s.mem s.pc = .ok op →
    m.lookup op = some x → stepWith m s = .next t → t.fault = none →
    (x ≠ .call → x ≠ .ret → t.pc = s.pc + (op.toNat / 64 + 1)) ∧
    (x = .call → ∃ r : Reg, memRead s.mem (s.pc + 1 : Nat) = .ok (BitVec.ofNat 8 r) ∧ t.pc = (t.reg r).toNat) ∧
    (x = .ret → memRead s.mem (s.reg .sp).toNat = .ok (BitVec.ofNat 8 t.pc) ∧ t.pc < 256)

/-- R111 (assembled there from R101-R110): the machine's step is the pseudocode's step, transcribed line by line in
Sys2Proof/Machine/Pseudocode.lean, in every running state and under every opcode map meeting R79. The transcription calls
the same execute phases as `exec`, so what is compared is phases 1-6 and 9; the phases themselves are stated one by one
under the instructions. -/
def Obligations.StepIsThePseudocode : Prop :=
  ∀ (m : OpcodeMap), m.Valid → ∀ s : State, s.halted = false → stepWith m s = pseudoStep m s

/-! ## Invariants -/

/-- R113: every step keeps the invariants: canonical memory, `fault ≠ none` implies `halted`, pc at most 256, the output's
only notice that ends a run is the last event of a halted machine and agrees with the fault record, the fault record
names pc, and no fault is an unsupported ALU operation. -/
def Obligations.EveryStepKeepsTheInvariants : Prop :=
  ∀ (m : OpcodeMap) (s t : State), Inv s → stepWith m s = .next t → Inv t

/-- R200, R113: the invariants hold at construction, for every register draw, and at reset, the draw of zeros, which is the
model's choice (log entry 1). -/
def Obligations.ConstructionMeetsTheInvariants : Prop :=
  (∀ init : Vector Byte 7, Inv (State.construct init)) ∧ Inv State.reset

/-- R113, R112, R203: the invariants hold in every state reachable from any register draw and any image. -/
def Obligations.ReachableStatesMeetTheInvariants : Prop :=
  ∀ (m : OpcodeMap) (s : State), Reachable m s → Inv s

/-- R210: a step that halts the machine ends the run normally, with HaltNotice last and pc the HLT's address plus 1, or in
a faulted end, with the notice of its record last and pc the faulting instruction's address. -/
def Obligations.RunEndsNormallyOrFaulted : Prop :=
  ∀ (m : OpcodeMap) (s t : State), Inv s → stepWith m s = .next t → t.halted = true →
    (NormalEnd t ∧ t.out.getLast? = some .haltNotice ∧ t.pc = s.pc + 1 ∧ memRead s.mem s.pc = .ok (m .hlt)) ∨
    (FaultedEnd t ∧ t.pc = s.pc ∧ ∃ f, t.fault = some f ∧ t.out.getLast? = some (.faultNotice f))

/-- R112: the state a run ends in is halted, takes no further step, and is the same whatever further steps are allowed:
there is no step limit (D21). That the model answers the fault `halted` there is the model's choice (log entry 3; R100
gives a halted machine no step), and so is running with fuel (log entry 20). -/
def Obligations.RunEndsInOneFinalState : Prop :=
  ∀ (m : OpcodeMap) (n k : Nat) (s t : State), runWith m n s = some t →
    t.halted = true ∧ stepWith m t = .fault .halted ∧ runWith m (n + k) s = some t

/-- R143, R189: the ALU rejects every selector but ADD and MUL with a machine fault, and no step can record that fault (the
spec's own inference in R143). That another selector is `AluOp.other` with a number is the model's choice (log entry 7). -/
def Obligations.UnsupportedAluOperationIsUnreachable : Prop :=
  (∀ (n : Nat) (a b : Reg) (s : State),
    (aluApply (.other n) a b s).settle s = .next (faulted s (.unsupportedALUOperation (.other n)))) ∧
  (∀ (m : OpcodeMap) (s t : State) (f : FaultRecord), s.fault = none → stepWith m s = .next t → t.fault = some f →
    f.kind ≠ .unsupportedALUOperation)

/-! ## Construction and load -/

/-- R200: every piece of state at construction, for every draw of R0-R6 (`State.reset` is the draw of zeros, which is the
model's choice, log entry 1). -/
def Obligations.ConstructionState : Prop :=
  ∀ init : Vector Byte 7,
    (∀ a : Int, 0 ≤ a ∧ a ≤ 255 → memRead (State.construct init).mem a = .ok 0) ∧
    (∀ i : Fin 7, (State.construct init).reg i.castSucc = init[i]) ∧
    (State.construct init).reg .sp = 0xF4 ∧ (State.construct init).pc = 0 ∧ (State.construct init).halted = false ∧
    (State.construct init).fault = none ∧ (State.construct init).out = []

/-- R202 (D17): loading an image of at most 256 bytes puts byte i at address i, leaves the cells after it 0 and every other piece
of state alone; a longer image is refused. The clause on the empty image, whose first step is UnrecognizedInstruction of
0x00 at pc 0, is the spec's own inference: R202 marks it "[derived: from this rule and 40_engine.md rule R105]". -/
def Obligations.LoadPlacesTheImage : Prop :=
  ∀ (init : Vector Byte 7) (image : List Byte),
    (image.length ≤ 256 → ∃ s, (State.construct init).load image = some s ∧
      s = { State.construct init with mem := s.mem } ∧
      ∀ a : Nat, a ≤ 255 → memRead s.mem a = .ok (image.getD a 0)) ∧
    (256 < image.length → (State.construct init).load image = none) ∧
    (∃ s, (State.construct init).load [] = some s ∧ step s = .next (faulted s (.unrecognizedInstruction 0)))

/-! ## The instructions

The bytes are those of the default opcode map (R73, D3, log entry 2). -/

/-- R130: HLT is the byte 0x01; it emits HaltNotice, sets halted, advances pc by 1 and writes nothing else; as a step the
operand reports come before the notice, and no step follows (R110, R100). That the model answers the fault `halted` to that
further step is the model's choice (log entry 3). -/
def Obligations.HltHaltsTheMachine : Prop :=
  encode .hlt = [0x01] ∧
  (∀ s : State, exec .hlt s = .next { s with halted := true, pc := s.pc + 1, out := s.out ++ [.haltNotice] }) ∧
  (∀ s : State, s.halted = false → memRead s.mem s.pc = .ok 0x01 → ∃ t,
    step s = .next t ∧ step t = .fault .halted ∧
    t = { s with halted := true, pc := s.pc + 1, out := s.out ++ unreadReports s.pc 0 ++ [.haltNotice] })

/-- R131: LDI is 0x82 rA imm; it writes the immediate unchanged to R[rA], R7 included, and advances pc by 3, nothing else;
rA >= 8 is IllegalRegister; at 254 operand2 and at 255 operand1 is an InvalidAddress fault. -/
def Obligations.LdiLoadsTheImmediate : Prop :=
  ∀ (rA imm : Byte) (s : State),
    encode (.ldi rA imm) = [0x82, rA, imm] ∧
    (∀ h : rA.toNat < 8, exec (.ldi rA imm) s = .next { s with regs := s.regs.set rA.toNat imm, pc := s.pc + 3 }) ∧
    (8 ≤ rA.toNat → exec (.ldi rA imm) s = .next (faulted s (.illegalRegister rA .rA))) ∧
    (s.halted = false → s.pc = 254 → memRead s.mem 254 = .ok 0x82 →
      step s = .next (faulted s (.invalidAddress 256 (.operand .operand2)))) ∧
    (s.halted = false → s.pc = 255 → memRead s.mem 255 = .ok 0x82 →
      step s = .next (faulted s (.invalidAddress 256 (.operand .operand1))))

/-- R132: PRN is 0x47 rA; it emits Print of R[rA], whose text is the decimal value and a line end (R184), and advances pc by
2, nothing else; rA >= 8 is IllegalRegister; at 255 operand1 is an InvalidAddress fault and at 254 the unread operand2 is
reported before the Print; PRN after LDI of the same register prints the immediate. -/
def Obligations.PrnPrintsTheRegister : Prop :=
  ∀ (rA : Byte) (s : State),
    encode (.prn rA) = [0x47, rA] ∧
    (∀ h : rA.toNat < 8, exec (.prn rA) s = .next { s with
      pc := s.pc + 2
      out := s.out ++ [.print (s.regs[rA.toNat])] }) ∧
    (∀ v : Byte, (Event.print v).render = toString v.toNat ++ "\n") ∧
    (8 ≤ rA.toNat → exec (.prn rA) s = .next (faulted s (.illegalRegister rA .rA))) ∧
    (s.halted = false → s.pc = 255 → memRead s.mem 255 = .ok 0x47 →
      step s = .next (faulted s (.invalidAddress 256 (.operand .operand1)))) ∧
    (∀ h : rA.toNat < 8, s.halted = false → s.pc = 254 → memRead s.mem 254 = .ok 0x47 → memRead s.mem 255 = .ok rA →
      step s = .next { s with
        pc := 256
        out := s.out ++ [.report (.invalidAddress 256 254 .operand2), .print (s.regs[rA.toNat])] }) ∧
    (∀ imm : Byte, rA.toNat < 8 → ∃ t u, exec (.ldi rA imm) s = .next t ∧ exec (.prn rA) t = .next u ∧
      u.out = s.out ++ [.print imm])

/-- R141: ADD is 0xA0 rA rB; R[rA] becomes (R[rA] + R[rB]) mod 256, both read before the write, pc advances by 3 and nothing
else changes; IllegalRegister for rA >= 8, then for rB >= 8; at 254 operand2 and at 255 operand1 is an InvalidAddress
fault. -/
def Obligations.AddWritesTheSum : Prop :=
  ∀ (rA rB : Byte) (s : State),
    encode (.add rA rB) = [0xA0, rA, rB] ∧
    (∀ (hA : rA.toNat < 8) (hB : rB.toNat < 8), exec (.add rA rB) s = .next { s with
      regs := s.regs.set rA.toNat (BitVec.ofNat 8 (((s.regs[rA.toNat]).toNat + (s.regs[rB.toNat]).toNat) % 256))
      pc := s.pc + 3 }) ∧
    (8 ≤ rA.toNat → exec (.add rA rB) s = .next (faulted s (.illegalRegister rA .rA))) ∧
    (rA.toNat < 8 → 8 ≤ rB.toNat → exec (.add rA rB) s = .next (faulted s (.illegalRegister rB .rB))) ∧
    (s.halted = false → s.pc = 254 → memRead s.mem 254 = .ok 0xA0 →
      step s = .next (faulted s (.invalidAddress 256 (.operand .operand2)))) ∧
    (s.halted = false → s.pc = 255 → memRead s.mem 255 = .ok 0xA0 →
      step s = .next (faulted s (.invalidAddress 256 (.operand .operand1))))

/-- R142: MUL is 0xA2 rA rB; R[rA] becomes (R[rA] * R[rB]) mod 256, both read before the write, pc advances by 3 and nothing
else changes; the faults are those of ADD. -/
def Obligations.MulWritesTheProduct : Prop :=
  ∀ (rA rB : Byte) (s : State),
    encode (.mul rA rB) = [0xA2, rA, rB] ∧
    (∀ (hA : rA.toNat < 8) (hB : rB.toNat < 8), exec (.mul rA rB) s = .next { s with
      regs := s.regs.set rA.toNat (BitVec.ofNat 8 (((s.regs[rA.toNat]).toNat * (s.regs[rB.toNat]).toNat) % 256))
      pc := s.pc + 3 }) ∧
    (8 ≤ rA.toNat → exec (.mul rA rB) s = .next (faulted s (.illegalRegister rA .rA))) ∧
    (rA.toNat < 8 → 8 ≤ rB.toNat → exec (.mul rA rB) s = .next (faulted s (.illegalRegister rB .rB))) ∧
    (s.halted = false → s.pc = 254 → memRead s.mem 254 = .ok 0xA2 →
      step s = .next (faulted s (.invalidAddress 256 (.operand .operand2)))) ∧
    (s.halted = false → s.pc = 255 → memRead s.mem 255 = .ok 0xA2 →
      step s = .next (faulted s (.invalidAddress 256 (.operand .operand1))))

/-- R151 (D7, D12): PUSH is 0x45 rA; with SP >= 1 it decrements SP, stores R[rA] as read after the decrement (so PUSH R7 stores the new
SP) at the new SP, `s.pushAddr`, leaves every other byte, register and piece of state alone and advances pc by 2; with
SP = 0 it is InvalidAddress (StackPush, -1); rA >= 8 is IllegalRegister; at 255 operand1 is an InvalidAddress fault. The
premise on the byte read back is the canonical form of memory. -/
def Obligations.PushStoresBelowTheStackPointer : Prop :=
  ∀ (rA : Byte) (s : State),
    encode (.push rA) = [0x45, rA] ∧
    (∀ h : rA.toNat < 8, 1 ≤ (s.reg .sp).toNat → ∃ t, exec (.push rA) s = .next t ∧
      s.pushAddr = (s.reg .sp).toNat - 1 ∧
      t.regs = s.regs.set 7 (BitVec.ofNat 8 ((s.reg .sp).toNat - 1)) ∧ t.pc = s.pc + 2 ∧
      t.halted = s.halted ∧ t.fault = s.fault ∧ t.out = s.out ∧
      (s.mem.wf → memRead t.mem s.pushAddr = .ok (t.regs[rA.toNat])) ∧
      ∀ b : Int, b ≠ s.pushAddr → memRead t.mem b = memRead s.mem b) ∧
    (rA.toNat < 8 → (s.reg .sp).toNat = 0 →
      exec (.push rA) s = .next (faulted s (.invalidAddress (-1) .stackPush))) ∧
    (8 ≤ rA.toNat → exec (.push rA) s = .next (faulted s (.illegalRegister rA .rA))) ∧
    (s.halted = false → s.pc = 255 → memRead s.mem 255 = .ok 0x45 →
      step s = .next (faulted s (.invalidAddress 256 (.operand .operand1))))

/-- R152 (D8, D12): POP is 0x46 rA; with SP = 0xF4 it reports StackEmpty, writes nothing and advances pc by 2; otherwise it reads the
byte at SP, writes it to R[rA] and then increments SP, which for rA = 7 is the popped byte plus 1; an increment to 256 is
InvalidAddress (StackPop, 256) with no write; rA >= 8 is IllegalRegister, also on an empty stack; at 255 operand1 is an
InvalidAddress fault. -/
def Obligations.PopReadsTheTopOfStack : Prop :=
  ∀ (rA : Byte) (s : State),
    encode (.pop rA) = [0x46, rA] ∧
    (rA.toNat < 8 → s.reg .sp = 0xF4 → exec (.pop rA) s = .next { s with
      pc := s.pc + 2
      out := s.out ++ [.report (.stackEmpty s.pc)] }) ∧
    (∀ v : Byte, memRead s.mem (s.reg .sp).toNat = .ok v → s.reg .sp ≠ 0xF4 →
      (∀ h : rA.toNat < 7, (s.reg .sp).toNat ≤ 254 → exec (.pop rA) s = .next { s with
        regs := (s.regs.set rA.toNat v).set 7 (BitVec.ofNat 8 ((s.reg .sp).toNat + 1))
        pc := s.pc + 2 }) ∧
      (rA.toNat = 7 → v.toNat ≤ 254 → exec (.pop rA) s = .next { s with
        regs := s.regs.set 7 (BitVec.ofNat 8 (v.toNat + 1))
        pc := s.pc + 2 }) ∧
      (rA.toNat < 7 → (s.reg .sp).toNat = 255 →
        exec (.pop rA) s = .next (faulted s (.invalidAddress 256 .stackPop))) ∧
      (rA.toNat = 7 → v.toNat = 255 → exec (.pop rA) s = .next (faulted s (.invalidAddress 256 .stackPop)))) ∧
    (8 ≤ rA.toNat → exec (.pop rA) s = .next (faulted s (.illegalRegister rA .rA))) ∧
    (s.halted = false → s.pc = 255 → memRead s.mem 255 = .ok 0x46 →
      step s = .next (faulted s (.invalidAddress 256 (.operand .operand1))))

/-- R160 (D7, D9, D12): CALL is 0x50 rA; with SP >= 1 and p + 2 <= 255 it decrements SP, stores p + 2 at the new SP, `s.pushAddr`, and sets
pc to R[rA] as read after the decrement (so CALL R7 jumps to the new SP), leaving every other byte, register and piece
of state alone; SP = 0 is InvalidAddress (StackPush, -1), and only then p + 2 > 255 is InvalidAddress (ReturnAddress);
rA >= 8 is IllegalRegister; at 255 operand1 is an InvalidAddress fault. The premise on the byte read back is the canonical
form of memory. -/
def Obligations.CallPushesTheReturnAddress : Prop :=
  ∀ (rA : Byte) (s : State),
    encode (.call rA) = [0x50, rA] ∧
    (∀ h : rA.toNat < 8, 1 ≤ (s.reg .sp).toNat → s.pc + 2 ≤ 255 → ∃ t, exec (.call rA) s = .next t ∧
      s.pushAddr = (s.reg .sp).toNat - 1 ∧
      t.regs = s.regs.set 7 (BitVec.ofNat 8 ((s.reg .sp).toNat - 1)) ∧ t.pc = (t.regs[rA.toNat]).toNat ∧
      t.halted = s.halted ∧ t.fault = s.fault ∧ t.out = s.out ∧
      (s.mem.wf → memRead t.mem s.pushAddr = .ok (BitVec.ofNat 8 (s.pc + 2))) ∧
      ∀ b : Int, b ≠ s.pushAddr → memRead t.mem b = memRead s.mem b) ∧
    (rA.toNat < 8 → (s.reg .sp).toNat = 0 →
      exec (.call rA) s = .next (faulted s (.invalidAddress (-1) .stackPush))) ∧
    (rA.toNat < 8 → 1 ≤ (s.reg .sp).toNat → 255 < s.pc + 2 →
      exec (.call rA) s = .next (faulted s (.invalidAddress (s.pc + 2 : Nat) .returnAddress))) ∧
    (8 ≤ rA.toNat → exec (.call rA) s = .next (faulted s (.illegalRegister rA .rA))) ∧
    (s.halted = false → s.pc = 255 → memRead s.mem 255 = .ok 0x50 →
      step s = .next (faulted s (.invalidAddress 256 (.operand .operand1))))

/-- R161 (D8): RET is the byte 0x11; with SP <= 254 it sets pc to the byte at SP and increments SP, with no test for an empty
stack, and changes nothing else; SP = 255 is InvalidAddress (StackPop, 256); as a step the operand reports come first. -/
def Obligations.RetPopsThePc : Prop :=
  encode .ret = [0x11] ∧
  ∀ (s : State) (v : Byte), memRead s.mem (s.reg .sp).toNat = .ok v →
    ((s.reg .sp).toNat ≤ 254 → exec .ret s = .next { s with
      regs := s.regs.set 7 (BitVec.ofNat 8 ((s.reg .sp).toNat + 1))
      pc := v.toNat }) ∧
    ((s.reg .sp).toNat = 255 → exec .ret s = .next (faulted s (.invalidAddress 256 .stackPop))) ∧
    (s.halted = false → memRead s.mem s.pc = .ok 0x11 → (s.reg .sp).toNat ≤ 254 → step s = .next { s with
      regs := s.regs.set 7 (BitVec.ofNat 8 ((s.reg .sp).toNat + 1))
      pc := v.toNat
      out := s.out ++ unreadReports s.pc 0 })

/-! ## Frames and whole-machine rules -/

/-- R23: a register slot outside the instruction's `writes` column keeps its value, for every instruction and form. -/
def Obligations.OnlyListedSlotsAreWritten : Prop :=
  ∀ (i : Instr) (s t : State) (q : Reg), exec i s = .next t → q.val ∉ writesSlots i → t.reg q = s.reg q

/-- R23, R25: what an instruction does not read cannot matter: changing a slot outside its `reads` column changes nothing in
the state it answers but that slot. -/
def Obligations.UnreadSlotsDoNotMatter : Prop :=
  ∀ (i : Instr) (s : State) (q : Reg) (v : Byte), q.val ∉ readsSlots i → ∃ t t', exec i s = .next t ∧
    exec i (s.setReg q v) = .next t' ∧ t'.mem = t.mem ∧ t'.pc = t.pc ∧ t'.halted = t.halted ∧ t'.fault = t.fault ∧
    t'.out = t.out ∧ ∀ r : Reg, r ≠ q → t'.reg r = t.reg r

/-- R56: only PUSH and CALL store, each one byte at SP - 1: every byte outside the stored one reads as before, and all of
memory is unchanged by the instructions that store nothing. -/
def Obligations.OnlyPushAndCallStore : Prop :=
  ∀ (i : Instr) (s t : State), exec i s = .next t →
    (storesAt i s = none → t.mem = s.mem) ∧
    (∀ a : Int, storesAt i s = some a → ∀ b : Int, b ≠ a → memRead t.mem b = memRead s.mem b) ∧
    (∀ a : Int, storesAt i s = some a → i.op = .push ∨ i.op = .call)

/-- R27-R29, R130, R132, R152, R173: the control state. An instruction that raises no fault leaves the fault record alone,
leaves `halted` alone unless it is HLT, and emits the halt notice (HLT), one Print of its register (PRN), one StackEmpty
report (POP on an empty stack) or nothing. -/
def Obligations.ControlStateFrame : Prop :=
  ∀ (i : Instr) (s t : State), exec i s = .next t →
    (∃ info, t = faulted s info) ∨
    (t.fault = s.fault ∧ (i ≠ .hlt → t.halted = s.halted) ∧
      match i with
      | .hlt => t.out = s.out ++ [.haltNotice]
      | .prn rA => ∃ r : Reg, r.val = rA.toNat ∧ t.out = s.out ++ [.print (s.reg r)]
      | .pop _ => t.out = s.out ++ (if s.reg .sp = 0xF4 then [.report (.stackEmpty s.pc)] else [])
      | _ => t.out = s.out)

/-- R26, C5: only CALL and RET transfer control: any other instruction leaves pc at the next instruction, or where it was if
it raises a machine fault. -/
def Obligations.OnlyCallAndRetTransferControl : Prop :=
  ∀ (i : Instr) (s t : State), exec i s = .next t → i.op ≠ .call → i.op ≠ .ret →
    t.pc = s.pc + (i.operandBytes.length + 1) ∨ ∃ info, t = faulted s info

/-! ## Laws of the stack, of calls and of self-modifying code -/

/-- R153 (derived there), C8: PUSH then POP of the same register, R7 included, gives back that register, SP and every other
register, for every SP before the PUSH but 0 and 0xF5; the pushed cell keeps the pushed value. -/
def Obligations.PushThenPopRestores : Prop :=
  ∀ (rA : Byte) (s : State), rA.toNat < 8 → s.mem.wf → s.reg .sp ≠ 0 → s.reg .sp ≠ 0xF5 →
    ∃ t u, exec (.push rA) s = .next t ∧ exec (.pop rA) t = .next u ∧ u.regs = s.regs ∧ u.mem = t.mem ∧ u.pc = s.pc + 4 ∧
      memRead u.mem s.pushAddr = .ok (t.regs.toList.getD rA.toNat 0)

/-- R153 (derived there), R150: from SP = 0xF4, any number of PUSHes up to 244 succeeds, filling 0xF3 downwards, and the
245th raises InvalidAddress (StackPush). -/
def Obligations.StackHolds244Pushes : Prop :=
  ∀ (rA : Byte) (s : State), rA.toNat < 8 → s.halted = false → s.reg .sp = 0xF4 →
    (∀ n : Nat, n ≤ 244 → ∃ t, repeated (.push rA) n s = some t ∧ (t.reg .sp).toNat = 244 - n ∧ t.pc = s.pc + 2 * n ∧
      ∀ a : Int, a < 244 - n ∨ 243 < a → memRead t.mem a = memRead s.mem a) ∧
    (∃ t, repeated (.push rA) 244 s = some t ∧
      exec (.push rA) t = .next (faulted t (.invalidAddress (-1) .stackPush)))

/-- R162 (derived there): after a CALL at p completes, a RET from any state whose SP and byte at SP are as the CALL left them
returns to p + 2 with SP as before the CALL. -/
def Obligations.CallThenRetResumes : Prop :=
  ∀ (rA : Byte) (s t u : State), s.mem.wf → s.fault = none → exec (.call rA) s = .next t → t.fault = none →
    u.reg .sp = t.reg .sp → memRead u.mem (u.reg .sp).toNat = memRead t.mem (t.reg .sp).toNat →
    ∃ w, exec .ret u = .next w ∧ w.pc = s.pc + 2 ∧ w.reg .sp = s.reg .sp ∧ w.mem = u.mem

/-- R62 (derived there): the byte a PUSH stores is seen by the fetch of the very next instruction when it lies at its
address, so a stored opcode is decoded as that instruction's. -/
def Obligations.NextFetchSeesTheStoredByte : Prop :=
  ∀ (rA : Byte) (s t : State), s.mem.wf → s.fault = none → exec (.push rA) s = .next t → t.fault = none →
    s.pushAddr = t.pc → ∃ (r : Reg) (rest : List Byte), r.val = rA.toNat ∧ t.fetch = t.reg r :: rest

/-- R206 (derived there), R32: a PUSH or CALL whose new SP is the address of its own operand byte uses the operand latched
before its write, and the write is done. -/
def Obligations.OperandsAreLatchedBeforeTheWrite : Prop :=
  ∀ (r : Reg) (s : State), r.val < 7 → s.halted = false → s.mem.wf → s.pc ≤ 253 → (s.reg .sp).toNat = s.pc + 2 →
    memRead s.mem (s.pc + 1 : Nat) = .ok (BitVec.ofNat 8 r) →
    (memRead s.mem s.pc = .ok 0x45 → ∃ t, step s = .next t ∧ t.pc = s.pc + 2 ∧
      memRead t.mem (s.pc + 1 : Nat) = .ok (s.reg r)) ∧
    (memRead s.mem s.pc = .ok 0x50 → ∃ t, step s = .next t ∧ t.pc = (s.reg r).toNat ∧
      memRead t.mem (s.pc + 1 : Nat) = .ok (BitVec.ofNat 8 (s.pc + 2)))
end

