-- ==== Sys2Proof/Laws/Decode.lean ====
section
/-! SUPPORT. Facts of the encoding: the default opcode map meets R79, a valid map's lookup finds each handler's byte,
and the length of an encoding. -/

namespace Sys2Proof

/-- The default map meets the constraint of R79. -/
theorem opcodeMap_valid : opcodeMap.Valid where
  distinct := by intro x y; cases x <;> cases y <;> decide
  count := by intro x; cases x <;> decide

theorem Op.mem_all (x : Op) : x ∈ Op.all := by cases x <;> decide

/-- What the lookup finds has the byte it was asked for. -/
theorem OpcodeMap.lookup_some {m : OpcodeMap} {op : Byte} {x : Op} (h : m.lookup op = some x) : m x = op := by
  simpa using List.find?_some h

/-- A byte is unrecognised exactly when no handler has it. -/
theorem OpcodeMap.lookup_none {m : OpcodeMap} {op : Byte} : m.lookup op = none ↔ ∀ x, m x ≠ op := by
  simp [OpcodeMap.lookup, Op.mem_all]

/-- Under a map with distinct bytes, a handler's byte is recognised as that handler. -/
theorem OpcodeMap.Valid.lookup_byte {m : OpcodeMap} (h : m.Valid) (x : Op) : m.lookup (m x) = some x := by
  cases hl : m.lookup (m x) with
  | none => exact absurd rfl (OpcodeMap.lookup_none.1 hl x)
  | some y => rw [h.distinct _ _ (OpcodeMap.lookup_some hl)]

theorem Instr.operandBytes_length (i : Instr) : i.operandBytes.length = i.op.operandCount := by
  cases i <;> rfl

theorem OpcodeMap.Valid.opLen_byte {m : OpcodeMap} (h : m.Valid) (x : Op) : opLen (m x) = x.length := by
  simp [opLen, Op.length, h.count]

theorem encodeWith_length {m : OpcodeMap} (h : m.Valid) (i : Instr) : (encodeWith m i).length = opLen (m i.op) := by
  simp [encodeWith, h.opLen_byte, Op.length, i.operandBytes_length]

/-- An opcode's operand count is at most 3, the value of two bits. -/
theorem opCount_le (op : Byte) : opCount op ≤ 3 := by
  have := op.isLt
  simp only [opCount, BitVec.toNat_ushiftRight, Nat.shiftRight_eq_div_pow]
  omega

end Sys2Proof
end

