-- ==== Sys2Proof/Laws/State.lean ====
section
/-! SUPPORT. The fields of the state after each update: one lemma per field per update. -/

namespace Sys2Proof.Machine

variable (s : State)

@[simp] theorem State.setReg_mem (r : Reg) (v : Byte) : (s.setReg r v).mem = s.mem := rfl
@[simp] theorem State.setReg_regs (r : Reg) (v : Byte) : (s.setReg r v).regs = s.regs.set r v := rfl
@[simp] theorem State.setReg_pc (r : Reg) (v : Byte) : (s.setReg r v).pc = s.pc := rfl
@[simp] theorem State.setReg_halted (r : Reg) (v : Byte) : (s.setReg r v).halted = s.halted := rfl
@[simp] theorem State.setReg_fault (r : Reg) (v : Byte) : (s.setReg r v).fault = s.fault := rfl
@[simp] theorem State.setReg_out (r : Reg) (v : Byte) : (s.setReg r v).out = s.out := rfl

@[simp] theorem State.setPc_mem (n : Nat) : (s.setPc n).mem = s.mem := rfl
@[simp] theorem State.setPc_regs (n : Nat) : (s.setPc n).regs = s.regs := rfl
@[simp] theorem State.setPc_pc (n : Nat) : (s.setPc n).pc = n := rfl
@[simp] theorem State.setPc_halted (n : Nat) : (s.setPc n).halted = s.halted := rfl
@[simp] theorem State.setPc_fault (n : Nat) : (s.setPc n).fault = s.fault := rfl
@[simp] theorem State.setPc_out (n : Nat) : (s.setPc n).out = s.out := rfl

@[simp] theorem State.advance_mem (n : Nat) : (s.advance n).mem = s.mem := rfl
@[simp] theorem State.advance_regs (n : Nat) : (s.advance n).regs = s.regs := rfl
@[simp] theorem State.advance_pc (n : Nat) : (s.advance n).pc = s.pc + n := rfl
@[simp] theorem State.advance_halted (n : Nat) : (s.advance n).halted = s.halted := rfl
@[simp] theorem State.advance_fault (n : Nat) : (s.advance n).fault = s.fault := rfl
@[simp] theorem State.advance_out (n : Nat) : (s.advance n).out = s.out := rfl

@[simp] theorem State.emit_mem (e : Event) : (s.emit e).mem = s.mem := rfl
@[simp] theorem State.emit_regs (e : Event) : (s.emit e).regs = s.regs := rfl
@[simp] theorem State.emit_pc (e : Event) : (s.emit e).pc = s.pc := rfl
@[simp] theorem State.emit_halted (e : Event) : (s.emit e).halted = s.halted := rfl
@[simp] theorem State.emit_fault (e : Event) : (s.emit e).fault = s.fault := rfl
@[simp] theorem State.emit_out (e : Event) : (s.emit e).out = s.out ++ [e] := rfl

@[simp] theorem State.report_mem (r : ReportRecord) : (s.report r).mem = s.mem := rfl
@[simp] theorem State.report_regs (r : ReportRecord) : (s.report r).regs = s.regs := rfl
@[simp] theorem State.report_pc (r : ReportRecord) : (s.report r).pc = s.pc := rfl
@[simp] theorem State.report_halted (r : ReportRecord) : (s.report r).halted = s.halted := rfl
@[simp] theorem State.report_fault (r : ReportRecord) : (s.report r).fault = s.fault := rfl
@[simp] theorem State.report_out (r : ReportRecord) : (s.report r).out = s.out ++ [.report r] := rfl

@[simp] theorem State.halt_mem : (s.halt).mem = s.mem := rfl
@[simp] theorem State.halt_regs : (s.halt).regs = s.regs := rfl
@[simp] theorem State.halt_pc : (s.halt).pc = s.pc := rfl
@[simp] theorem State.halt_halted : (s.halt).halted = true := rfl
@[simp] theorem State.halt_fault : (s.halt).fault = s.fault := rfl
@[simp] theorem State.halt_out : (s.halt).out = s.out := rfl

@[simp] theorem State.raise_mem (info : FaultInfo) : (s.raise info).mem = s.mem := rfl
@[simp] theorem State.raise_regs (info : FaultInfo) : (s.raise info).regs = s.regs := rfl
@[simp] theorem State.raise_pc (info : FaultInfo) : (s.raise info).pc = s.pc := rfl
@[simp] theorem State.raise_halted (info : FaultInfo) : (s.raise info).halted = true := rfl
@[simp] theorem State.raise_fault (info : FaultInfo) : (s.raise info).fault = some ⟨s.pc, info⟩ := rfl
@[simp] theorem State.raise_out (info : FaultInfo) : (s.raise info).out = s.out ++ [.faultNotice ⟨s.pc, info⟩] := rfl

@[simp] theorem State.store_regs (a : Int) (v : Byte) : (s.store a v).regs = s.regs := by
  unfold State.store; split <;> rfl
@[simp] theorem State.store_pc (a : Int) (v : Byte) : (s.store a v).pc = s.pc := by
  unfold State.store; split <;> rfl
@[simp] theorem State.store_halted (a : Int) (v : Byte) : (s.store a v).halted = s.halted := by
  unfold State.store; split <;> rfl
@[simp] theorem State.store_fault (a : Int) (v : Byte) : (s.store a v).fault = s.fault := by
  unfold State.store; split <;> rfl
@[simp] theorem State.store_out (a : Int) (v : Byte) : (s.store a v).out = s.out := by
  unfold State.store; split <;> rfl

/-- An in-range store sets one cell; any other store sets none (R52). -/
@[simp] theorem State.store_mem (a : Int) (v : Byte) :
    (s.store a v).mem = if inRange a then s.mem.set a.toNat v else s.mem := by
  unfold State.store memWrite
  by_cases h : inRange a = true <;> simp [h]

@[simp] theorem State.withEvents_mem (es : List Event) : (withEvents s es).mem = s.mem := rfl
@[simp] theorem State.withEvents_regs (es : List Event) : (withEvents s es).regs = s.regs := rfl
@[simp] theorem State.withEvents_pc (es : List Event) : (withEvents s es).pc = s.pc := rfl
@[simp] theorem State.withEvents_halted (es : List Event) : (withEvents s es).halted = s.halted := rfl
@[simp] theorem State.withEvents_fault (es : List Event) : (withEvents s es).fault = s.fault := rfl
@[simp] theorem State.withEvents_out (es : List Event) : (withEvents s es).out = s.out ++ es := rfl

/-- A register read after a register write (R9): no slot is hardwired and only SP names slot 7 twice (R22). -/
theorem State.reg_setReg (r q : Reg) (v : Byte) : (s.setReg r v).reg q = if q = r then v else s.reg q := by
  simp only [State.reg, State.setReg, Fin.getElem_fin, Vector.getElem_set, Fin.ext_iff, eq_comm]

@[simp] theorem State.reg_setPc (n : Nat) (q : Reg) : (s.setPc n).reg q = s.reg q := rfl
@[simp] theorem State.reg_advance (n : Nat) (q : Reg) : (s.advance n).reg q = s.reg q := rfl
@[simp] theorem State.reg_emit (e : Event) (q : Reg) : (s.emit e).reg q = s.reg q := rfl
@[simp] theorem State.reg_report (r : ReportRecord) (q : Reg) : (s.report r).reg q = s.reg q := rfl
@[simp] theorem State.reg_halt (q : Reg) : s.halt.reg q = s.reg q := rfl
@[simp] theorem State.reg_raise (info : FaultInfo) (q : Reg) : (s.raise info).reg q = s.reg q := rfl
@[simp] theorem State.reg_withEvents (es : List Event) (q : Reg) : (withEvents s es).reg q = s.reg q := rfl
@[simp] theorem State.reg_store (a : Int) (v : Byte) (q : Reg) : (s.store a v).reg q = s.reg q := by
  simp [State.reg]

/-- The effect of a machine fault, field by field (R175). -/
theorem State.raise_eq_faulted (info : FaultInfo) : s.raise info = faulted s info := rfl

end Sys2Proof.Machine
end

