-- ==== Sys2Proof/Laws/Ops.lean ====
section
/-! SUPPORT. What the shared operations can do: the register check, the end of an execute phase, the operand reports. -/

namespace Sys2Proof.Machine

theorem slot_eq_some {b : Byte} {r : Reg} : slot b = some r ↔ b.toNat = r.val := by
  unfold slot
  split
  · simp [Fin.ext_iff]
  · constructor
    · simp
    · intro h; exact absurd (h ▸ r.isLt) ‹_›

theorem slot_eq_none {b : Byte} : slot b = none ↔ 8 ≤ b.toNat := by
  unfold slot; split <;> simp <;> omega

theorem slot_of_lt {b : Byte} (h : b.toNat < 8) : slot b = some ⟨b.toNat, h⟩ := slot_eq_some.2 rfl

/-- The register check either raises IllegalRegister or goes on with the slot (R106). -/
theorem withReg_next {field : RegField} {b : Byte} {s t : State} {k : Reg → Result} (h : withReg field b s k = .next t) :
    (8 ≤ b.toNat ∧ t = s.raise (.illegalRegister b field)) ∨ (∃ r, slot b = some r ∧ k r = .next t) := by
  unfold withReg at h
  split at h
  · next hb => cases h; exact .inl ⟨slot_eq_none.1 hb, rfl⟩
  · next r hb => exact .inr ⟨r, hb, h⟩

theorem withReg_slot {field : RegField} {b : Byte} {s : State} {k : Reg → Result} {r : Reg} (h : slot b = some r) :
    withReg field b s k = k r := by simp [withReg, h]

theorem withReg_illegal {field : RegField} {b : Byte} {s : State} {k : Reg → Result} (h : 8 ≤ b.toNat) :
    withReg field b s k = .next (s.raise (.illegalRegister b field)) := by simp [withReg, slot_eq_none.2 h]

/-- An execute phase ends in a completed state or in a machine fault on the state it began in (R175). -/
theorem Phase.settle_next {p : Phase} {s t : State} (h : p.settle s = .next t) :
    p = .done t ∨ ∃ info, p = .raise info ∧ t = s.raise info := by
  cases p with
  | done u => cases h; exact .inl rfl
  | raise info => cases h; exact .inr ⟨info, rfl, rfl⟩

theorem Phase.thenAdvance_done {p : Phase} {n : Nat} {t : State} (h : p.thenAdvance n = .done t) :
    ∃ u, p = .done u ∧ t = u.advance n := by
  cases p with
  | done u => cases h; exact ⟨u, rfl, rfl⟩
  | raise info => cases h

theorem Phase.thenAdvance_raise {p : Phase} {n : Nat} {info : FaultInfo} (h : p.thenAdvance n = .raise info) :
    p = .raise info := by
  cases p with
  | done u => cases h
  | raise info' => cases h; rfl

/-- ADD's selector completes with the sum (R140, R141). -/
theorem aluApply_add (a b : Reg) (s : State) :
    aluApply .add a b s = .done (s.setReg a (BitVec.ofNat 8 (((s.reg a).toNat + (s.reg b).toNat) % 256))) := rfl

/-- MUL's selector completes with the product (R140, R142). -/
theorem aluApply_mul (a b : Reg) (s : State) :
    aluApply .mul a b s = .done (s.setReg a (BitVec.ofNat 8 (((s.reg a).toNat * (s.reg b).toNat) % 256))) := rfl

/-- A push addresses -1 or a cell below the top of memory (R150, R151). -/
theorem State.pushAddr_range (s : State) : -1 ≤ s.pushAddr ∧ s.pushAddr ≤ 254 := by
  have := (s.reg .sp).isLt
  unfold State.pushAddr
  omega

/-- The byte SP takes when a push is in range is its address. -/
theorem State.ofInt_pushAddr {s : State} (h : 1 ≤ (s.reg .sp).toNat) :
    (BitVec.ofInt 8 s.pushAddr : Byte) = BitVec.ofNat 8 ((s.reg .sp).toNat - 1) := by
  unfold State.pushAddr
  rw [show ((s.reg .sp).toNat : Int) - 1 = (((s.reg .sp).toNat - 1 : Nat) : Int) by omega, BitVec.ofInt_natCast]

/-- The byte at the top of the stack is what MemRead of SP answers (R152, R161). -/
theorem State.top_eq (s : State) : memRead s.mem (s.reg .sp).toNat = .ok s.top := by
  have h : (s.reg .sp).toNat ≤ 255 := Nat.le_of_lt_succ (s.reg .sp).isLt
  have hr : inRange ((s.reg .sp).toNat : Int) = true := decide_eq_true h
  simp only [memRead, hr, if_true, State.top, Int.toNat_natCast]

/-- Placing bytes changes memory only (R202). -/
theorem State.place_frame (s : State) (a : Nat) (bytes : List Byte) :
    s.place a bytes = { s with mem := (s.place a bytes).mem } := by
  induction bytes generalizing s a with
  | nil => rfl
  | cons b rest ih =>
    rw [State.place, ih]
    unfold State.store
    split <;> rfl

end Sys2Proof.Machine
end

