-- ==== Sys2Proof/Laws/Exec.lean ====
section
/-! SUPPORT. What one instruction can do, said once: it raises a machine fault on the state it began in, or it
completes as its rule says. -/

namespace Sys2Proof.Machine

/-- The completed effect of each instruction, over the named operations (spec/41-44). -/
def Completes (i : Instr) (s t : State) : Prop :=
  match i with
  | .hlt => t = ((s.emit .haltNotice).halt).advance 1
  | .ldi rA imm => ∃ a, slot rA = some a ∧ t = (s.setReg a imm).advance 3
  | .prn rA => ∃ a, slot rA = some a ∧ t = (s.emit (.print (s.reg a))).advance 2
  | .add rA rB => ∃ a b, slot rA = some a ∧ slot rB = some b ∧
      t = (s.setReg a (BitVec.ofNat 8 (((s.reg a).toNat + (s.reg b).toNat) % 256))).advance 3
  | .mul rA rB => ∃ a b, slot rA = some a ∧ slot rB = some b ∧
      t = (s.setReg a (BitVec.ofNat 8 (((s.reg a).toNat * (s.reg b).toNat) % 256))).advance 3
  | .push rA => ∃ a, slot rA = some a ∧ 0 ≤ s.pushAddr ∧
      t = ((s.setReg .sp (BitVec.ofInt 8 s.pushAddr)).store s.pushAddr
        ((s.setReg .sp (BitVec.ofInt 8 s.pushAddr)).reg a)).advance 2
  | .pop rA => ∃ a, slot rA = some a ∧
      ((s.reg .sp = 0xF4 ∧ t = (s.report (.stackEmpty s.pc)).advance 2) ∨
       (s.reg .sp ≠ 0xF4 ∧ (popBase a s).toNat + 1 ≤ 255 ∧
        t = ((s.setReg a s.top).setReg .sp (BitVec.ofNat 8 ((popBase a s).toNat + 1))).advance 2))
  | .call rA => ∃ a, slot rA = some a ∧ 0 ≤ s.pushAddr ∧ s.pc + 2 ≤ 255 ∧
      t = ((s.setReg .sp (BitVec.ofInt 8 s.pushAddr)).store s.pushAddr (BitVec.ofNat 8 (s.pc + 2))).setPc
        ((s.setReg .sp (BitVec.ofInt 8 s.pushAddr)).reg a).toNat
  | .ret => (s.reg .sp).toNat + 1 ≤ 255 ∧
      t = (s.setReg .sp (BitVec.ofNat 8 ((s.reg .sp).toNat + 1))).setPc s.top.toNat

/-- The machine faults an instruction can raise once it is decoded: an illegal register operand of its own, or an
invalid stack or return address (R173). -/
def MayRaise (i : Instr) (info : FaultInfo) : Prop :=
  (∃ f b, info = .illegalRegister b f ∧ (f, b) ∈ registerOperands i ∧ 8 ≤ b.toNat) ∨ ∃ a c, info = .invalidAddress a c

/-- An instruction raises one of its machine faults on the state it began in, or completes. -/
theorem exec_next {i : Instr} {s t : State} (h : exec i s = .next t) :
    (∃ info, t = s.raise info ∧ MayRaise i info) ∨ Completes i s t := by
  cases i with
  | hlt => cases h; exact .inr rfl
  | ldi rA imm =>
    rcases withReg_next h with ⟨h8, ht⟩ | ⟨a, ha, h⟩
    · exact .inl ⟨_, ht, .inl ⟨_, _, rfl, by simp [registerOperands], h8⟩⟩
    · cases h; exact .inr ⟨a, ha, rfl⟩
  | prn rA =>
    rcases withReg_next h with ⟨h8, ht⟩ | ⟨a, ha, h⟩
    · exact .inl ⟨_, ht, .inl ⟨_, _, rfl, by simp [registerOperands], h8⟩⟩
    · cases h; exact .inr ⟨a, ha, rfl⟩
  | add rA rB =>
    rcases withReg_next h with ⟨h8, ht⟩ | ⟨a, ha, h⟩
    · exact .inl ⟨_, ht, .inl ⟨_, _, rfl, by simp [registerOperands], h8⟩⟩
    · rcases withReg_next h with ⟨h8, ht⟩ | ⟨b, hb, h⟩
      · exact .inl ⟨_, ht, .inl ⟨_, _, rfl, by simp [registerOperands], h8⟩⟩
      · cases h; exact .inr ⟨a, b, ha, hb, rfl⟩
  | mul rA rB =>
    rcases withReg_next h with ⟨h8, ht⟩ | ⟨a, ha, h⟩
    · exact .inl ⟨_, ht, .inl ⟨_, _, rfl, by simp [registerOperands], h8⟩⟩
    · rcases withReg_next h with ⟨h8, ht⟩ | ⟨b, hb, h⟩
      · exact .inl ⟨_, ht, .inl ⟨_, _, rfl, by simp [registerOperands], h8⟩⟩
      · cases h; exact .inr ⟨a, b, ha, hb, rfl⟩
  | push rA =>
    rcases withReg_next h with ⟨h8, ht⟩ | ⟨a, ha, h⟩
    · exact .inl ⟨_, ht, .inl ⟨_, _, rfl, by simp [registerOperands], h8⟩⟩
    · unfold pushPhase at h
      split at h
      · cases h; exact .inl ⟨_, rfl, .inr ⟨_, _, rfl⟩⟩
      · next hn => cases h; exact .inr ⟨a, ha, by omega, rfl⟩
  | pop rA =>
    rcases withReg_next h with ⟨h8, ht⟩ | ⟨a, ha, h⟩
    · exact .inl ⟨_, ht, .inl ⟨_, _, rfl, by simp [registerOperands], h8⟩⟩
    · unfold popPhase at h
      split at h
      · next he => cases h; exact .inr ⟨a, ha, .inl ⟨he, rfl⟩⟩
      · next he =>
        split at h
        · cases h; exact .inl ⟨_, rfl, .inr ⟨_, _, rfl⟩⟩
        · next hn => cases h; exact .inr ⟨a, ha, .inr ⟨he, by simp only [Config.addrMax] at hn; omega, rfl⟩⟩
  | call rA =>
    rcases withReg_next h with ⟨h8, ht⟩ | ⟨a, ha, h⟩
    · exact .inl ⟨_, ht, .inl ⟨_, _, rfl, by simp [registerOperands], h8⟩⟩
    · unfold callPhase at h
      split at h
      · cases h; exact .inl ⟨_, rfl, .inr ⟨_, _, rfl⟩⟩
      · next hn =>
        split at h
        · cases h; exact .inl ⟨_, rfl, .inr ⟨_, _, rfl⟩⟩
        · next hr => cases h; exact .inr ⟨a, ha, by omega, by simp only [Config.addrMax] at hr; omega, rfl⟩
  | ret =>
    change (retPhase s).settle s = .next t at h
    unfold retPhase at h
    split at h
    · cases h; exact .inl ⟨_, rfl, .inr ⟨_, _, rfl⟩⟩
    · next hn => cases h; exact .inr ⟨by simp only [Config.addrMax] at hn; omega, rfl⟩

theorem MayRaise.ne_unsupported {i : Instr} {info : FaultInfo} (h : MayRaise i info) :
    info.kind ≠ .unsupportedALUOperation := by
  rcases h with ⟨f, b, rfl, -, -⟩ | ⟨a, c, rfl⟩ <;> simp [FaultInfo.kind]

/-- A completed instruction leaves the fault record alone (R28). -/
theorem Completes.fault_eq {i : Instr} {s t : State} (h : Completes i s t) : t.fault = s.fault := by
  cases i <;> simp only [Completes] at h
  case hlt => subst h; rfl
  case ret => obtain ⟨-, rfl⟩ := h; rfl
  case pop => obtain ⟨a, -, ⟨-, rfl⟩ | ⟨-, -, rfl⟩⟩ := h <;> rfl
  case push => obtain ⟨a, -, -, rfl⟩ := h; simp
  case call => obtain ⟨a, -, -, -, rfl⟩ := h; simp
  case add | mul => obtain ⟨a, b, -, -, rfl⟩ := h; rfl
  case ldi | prn => obtain ⟨a, -, rfl⟩ := h; rfl

/-- A completed instruction other than HLT leaves the halted flag alone (R27). -/
theorem Completes.halted_eq {i : Instr} {s t : State} (h : Completes i s t) (hi : i ≠ .hlt) : t.halted = s.halted := by
  cases i <;> simp only [Completes] at h
  case hlt => exact absurd rfl hi
  case ret => obtain ⟨-, rfl⟩ := h; rfl
  case pop => obtain ⟨a, -, ⟨-, rfl⟩ | ⟨-, -, rfl⟩⟩ := h <;> rfl
  case push => obtain ⟨a, -, -, rfl⟩ := h; simp
  case call => obtain ⟨a, -, -, -, rfl⟩ := h; simp
  case add | mul => obtain ⟨a, b, -, -, rfl⟩ := h; rfl
  case ldi | prn => obtain ⟨a, -, rfl⟩ := h; rfl

/-- Every instruction answers a next state (R78, R173): nothing is refused and no instruction stops the machine
without an effect. -/
theorem exec_answers (i : Instr) (s : State) : ∃ t, exec i s = .next t := by
  have settle (p : Phase) (u : State) : ∃ t, p.settle u = .next t := by cases p <;> exact ⟨_, rfl⟩
  have check (field : RegField) (b : Byte) (k : Reg → Result) (hk : ∀ r, ∃ t, k r = .next t) :
      ∃ t, withReg field b s k = .next t := by
    unfold withReg; split
    · exact ⟨_, rfl⟩
    · exact hk _
  cases i with
  | hlt => exact ⟨_, rfl⟩
  | ldi rA _ => exact check .rA rA _ fun _ => settle _ s
  | prn rA => exact check .rA rA _ fun _ => settle _ s
  | add rA rB => exact check .rA rA _ fun _ => check .rB rB _ fun _ => settle _ s
  | mul rA rB => exact check .rA rA _ fun _ => check .rB rB _ fun _ => settle _ s
  | push rA => exact check .rA rA _ fun _ => settle _ s
  | pop rA => exact check .rA rA _ fun _ => settle _ s
  | call rA => exact check .rA rA _ fun _ => settle _ s
  | ret => exact settle (retPhase s) s

end Sys2Proof.Machine
end

