-- ==== Sys2Proof/Laws/Memory.lean ====
section
/-! SUPPORT. The laws of memory: what a cell reads after a write, and that every operation keeps the canonical form. -/

namespace Sys2Proof.Machine

theorem inRange_iff (a : Int) : inRange a = true ↔ 0 ≤ a ∧ a ≤ 255 := by
  cases a with
  | ofNat n =>
    change decide (n ≤ 255) = true ↔ (0 : Int) ≤ (n : Int) ∧ (n : Int) ≤ 255
    rw [decide_eq_true_iff]
    omega
  | negSucc n => simp only [inRange, Bool.false_eq_true, false_iff]; omega

@[simp] theorem inRange_natCast (n : Nat) : inRange (n : Int) = decide (n ≤ 255) := rfl

/-- A write leaves every other cell alone, whatever the list. -/
theorem Memory.cell_set_ne (m : Memory) {a b : Nat} (v : Byte) (h : b ≠ a) : (m.set a v).cell b = m.cell b := by
  induction m with
  | nil => simp only [Memory.set]; split <;> simp [Memory.cell, Ne.symm h]
  | cons c rest ih =>
    simp only [Memory.set]
    split_ifs with h1 h2 h3 h4 <;> simp_all [Memory.cell, Ne.symm]

/-- An address below every listed one reads as zero. -/
theorem Memory.cell_of_lt {m : Memory} {a : Nat} (h : ∀ c ∈ m, a < c.1) : m.cell a = 0 := by
  induction m with
  | nil => rfl
  | cons c rest ih =>
    have hc := h c (by simp)
    simp [Memory.cell, show c.1 ≠ a by omega, ih fun d hd => h d (by simp [hd])]

/-- A write is read back, on a sorted list. -/
theorem Memory.cell_set_self {m : Memory} (hm : m.Pairwise fun x y => x.1 < y.1) (a : Nat) (v : Byte) :
    (m.set a v).cell a = v := by
  induction m with
  | nil => simp only [Memory.set]; split <;> simp_all [Memory.cell]
  | cons c rest ih =>
    have ⟨hc, hrest⟩ := List.pairwise_cons.1 hm
    simp only [Memory.set]
    split_ifs with h1 h2 h3 h4
    · have : c.1 ≠ a := by omega
      simp [Memory.cell, this, h2]
      exact Memory.cell_of_lt fun d hd => by have := hc d hd; omega
    · simp [Memory.cell]
    · subst h3; subst h4; exact Memory.cell_of_lt hc
    · simp [Memory.cell]
    · simp [Memory.cell, Ne.symm h3, ih hrest]

/-- The addresses a write can list. -/
theorem Memory.mem_set {m : Memory} {a : Nat} {v : Byte} {c : Host.Cell} (h : c ∈ m.set a v) :
    (c = (a, v) ∧ v ≠ 0) ∨ c ∈ m := by
  induction m with
  | nil => simp only [Memory.set] at h; split at h <;> simp_all
  | cons d rest ih =>
    simp only [Memory.set] at h
    split_ifs at h with h1 h2 h3 h4 <;> simp only [List.mem_cons] at h ⊢
    · exact .inr h
    · rcases h with h | h
      · exact .inl ⟨h, h2⟩
      · exact .inr h
    · exact .inr (.inr h)
    · rcases h with h | h
      · exact .inl ⟨h, h4⟩
      · exact .inr (.inr h)
    · rcases h with h | h
      · exact .inr (.inl h)
      · exact (ih h).imp_right .inr

/-- A write keeps the canonical form (R21). -/
theorem Memory.set_wf {m : Memory} (hm : m.wf) {a : Nat} (ha : a ≤ 255) (v : Byte) : (m.set a v).wf := by
  refine ⟨?_, fun c hc => ?_⟩
  · obtain ⟨hp, -⟩ := hm
    induction m with
    | nil => simp only [Memory.set]; split <;> simp
    | cons c rest ih =>
      have ⟨hc, hrest⟩ := List.pairwise_cons.1 hp
      simp only [Memory.set]
      split_ifs with h1 h2 h3 h4
      · exact hp
      · refine List.pairwise_cons.2 ⟨fun d hd => ?_, hp⟩
        rcases List.mem_cons.1 hd with rfl | hd
        · exact h1
        · have := hc d hd
          exact Nat.lt_trans h1 this
      · exact hrest
      · exact List.pairwise_cons.2 ⟨fun d hd => h3 ▸ hc d hd, hrest⟩
      · refine List.pairwise_cons.2 ⟨fun d hd => ?_, ih hrest⟩
        rcases Memory.mem_set hd with ⟨rfl, -⟩ | hd
        · simp only; omega
        · exact hc d hd
  · rcases Memory.mem_set hc with ⟨rfl, hv⟩ | hc
    · exact ⟨ha, hv⟩
    · exact hm.2 c hc

theorem Memory.wf_nil : Memory.wf [] := ⟨List.Pairwise.nil, fun _ h => absurd h (List.not_mem_nil)⟩

/-- Every successful write keeps the canonical form. -/
theorem memWrite_wf {m m' : Memory} {a : Int} {v : Byte} (hm : m.wf) (h : memWrite m a v = .ok m') : m'.wf := by
  unfold memWrite at h
  split at h
  · next ha =>
    have := (inRange_iff a).1 ha
    cases h
    exact Memory.set_wf hm (by omega) v
  · cases h

/-- A store keeps the canonical form. -/
theorem State.store_wf {s : State} (hm : s.mem.wf) (a : Int) (v : Byte) : (s.store a v).mem.wf := by
  unfold State.store
  split
  · next h => exact memWrite_wf hm h
  · exact hm

/-- Placing bytes keeps the canonical form. -/
theorem State.place_wf {s : State} (hm : s.mem.wf) (a : Nat) (bytes : List Byte) : (s.place a bytes).mem.wf := by
  induction bytes generalizing s a with
  | nil => exact hm
  | cons b rest ih => exact ih (State.store_wf hm a b) (a + 1)

/-- Memory at reset is in canonical form. -/
theorem State.reset_wf : State.reset.mem.wf := Memory.wf_nil

theorem memRead_natCast (m : Memory) (n : Nat) :
    memRead m n = if n ≤ 255 then .ok (m.cell n) else .invalid n := by
  simp [memRead]

theorem memRead_in {m : Memory} {a : Int} (h : 0 ≤ a ∧ a ≤ 255) : memRead m a = .ok (m.cell a.toNat) := by
  simp [memRead, (inRange_iff a).2 h]

theorem memRead_out {m : Memory} {a : Int} (h : ¬ (0 ≤ a ∧ a ≤ 255)) : memRead m a = .invalid a := by
  rw [← inRange_iff] at h
  simp [memRead, h]

/-- A read at a natural address that succeeds reads the cell there. -/
theorem memRead_ok {m : Memory} {n : Nat} {v : Byte} (h : memRead m n = .ok v) : n ≤ 255 ∧ m.cell n = v := by
  rw [memRead_natCast] at h
  split at h
  · exact ⟨‹_›, by cases h; rfl⟩
  · cases h

/-- A store leaves every other address as it was (R52). -/
theorem memRead_store_ne (s : State) {a b : Int} (v : Byte) (h : b ≠ a) :
    memRead (s.store a v).mem b = memRead s.mem b := by
  simp only [State.store_mem]
  split
  · next ha =>
    have := (inRange_iff a).1 ha
    by_cases hb : 0 ≤ b ∧ b ≤ 255
    · rw [memRead_in hb, memRead_in hb, Memory.cell_set_ne]; omega
    · rw [memRead_out hb, memRead_out hb]
  · rfl

/-- A store inside memory is read back, on a memory in canonical form. -/
theorem memRead_store_self {s : State} (hm : s.mem.wf) {a : Int} (ha : 0 ≤ a ∧ a ≤ 255) (v : Byte) :
    memRead (s.store a v).mem a = .ok v := by
  rw [memRead_in ha, State.store_mem, if_pos ((inRange_iff a).2 ha), Memory.cell_set_self hm.1]

theorem holdsBytes_nil (s : State) (a : Nat) : holdsBytes s a [] := fun _ h => absurd h (by simp)

theorem holdsBytes_cons {s : State} {a : Nat} {b : Byte} {rest : List Byte} :
    holdsBytes s a (b :: rest) ↔ memRead s.mem a = .ok b ∧ holdsBytes s (a + 1) rest := by
  constructor
  · intro h
    refine ⟨h 0 (Nat.zero_lt_succ _), fun j hj => ?_⟩
    rw [show a + 1 + j = a + (j + 1) by omega]
    exact h (j + 1) (Nat.succ_lt_succ hj)
  · rintro ⟨h0, h⟩ j hj
    rcases j with _ | j
    · exact h0
    · rw [show a + (j + 1) = a + 1 + j by omega]
      exact h j (Nat.lt_of_succ_lt_succ hj)

end Sys2Proof.Machine
end

