-- ==== Sys2Proof/Laws/Engine.lean ====
section
/-! SUPPORT. What the fetch, the operand reports and one step can do. -/

namespace Sys2Proof.Machine

/-- The fetch of a pc past memory reads nothing (R101). -/
theorem State.fetch_past {s : State} (h : 255 < s.pc) : s.fetch = [] := by
  simp [State.fetch, memRead_natCast, readBytes, show ¬ s.pc ≤ 255 by omega]

/-- The fetch of a pc in memory reads the opcode byte and the candidate operands that are in range (R101, R102). -/
theorem State.fetch_in {s : State} (h : s.pc ≤ 255) :
    s.fetch = s.mem.cell s.pc :: (if s.pc + 1 ≤ 255 then
      s.mem.cell (s.pc + 1) :: (if s.pc + 2 ≤ 255 then [s.mem.cell (s.pc + 2)] else []) else []) := by
  simp only [State.fetch, memRead_natCast, h, if_true]
  by_cases h1 : s.pc + 1 ≤ 255
  · by_cases h2 : s.pc + 2 ≤ 255 <;> simp [h1, h2, readBytes]
  · simp [h1, readBytes]

/-- The operand reports of phase 4 are those of R104. -/
theorem State.reportOperands_eq (s : State) (ins : Option Op) :
    s.reportOperands ins = withEvents s (unreadReports s.pc (match ins with | none => 0 | some x => x.operandCount)) := by
  have h1 : (s.pc + 1 ≤ 255) ↔ ¬ 255 < s.pc + 1 := by omega
  have h2 : (s.pc + 2 ≤ 255) ↔ ¬ 255 < s.pc + 2 := by omega
  simp only [State.reportOperands, List.foldl, State.reportOperand, OperandPos.offset, memRead_natCast]
  rcases ins with _ | x
  · by_cases g1 : 255 < s.pc + 1 <;> by_cases g2 : 255 < s.pc + 2 <;>
      simp [h1, h2, g1, g2, consumed, unreadReports, withEvents, State.report, State.emit]
  · rcases x <;> by_cases g1 : 255 < s.pc + 1 <;> by_cases g2 : 255 < s.pc + 2 <;>
      simp [h1, h2, g1, g2, consumed, unreadReports, withEvents, State.report, State.emit, OperandPos.offset, Op.operandCount]

/-- No report ends a run. -/
theorem unreadReports_ends {p n : Nat} {e : Event} (h : e ∈ unreadReports p n) : e.ends = false := by
  unfold unreadReports at h
  split_ifs at h <;> simp at h <;> (try rcases h with rfl | rfl) <;> simp_all [Event.ends]

/-- At most two operand reports (R177). -/
theorem unreadReports_length (p n : Nat) : (unreadReports p n).length ≤ 2 := by
  unfold unreadReports; split_ifs <;> simp

/-- An instruction that consumes two operands reports none. -/
@[simp] theorem unreadReports_two (p : Nat) : unreadReports p 2 = [] := by simp [unreadReports]

/-- With an opcode byte present, the decoder does not answer that there is none. -/
theorem decodeWith_cons_ne_noOpcode (m : OpcodeMap) (op : Byte) (rest : List Byte) :
    decodeWith m (op :: rest) ≠ .noOpcode := by
  simp only [decodeWith]
  split
  · nofun
  · next x _ =>
    cases x <;> rcases rest with _ | ⟨a, _ | ⟨b, more⟩⟩ <;> simp [decodeOperands, decodeF1, decodeF2]

/-- One step, said once: the machine was running, and the step is the fault of a missing byte or an unrecognised opcode,
or one instruction after its operand reports (R101-R107). -/
theorem stepWith_next {m : OpcodeMap} {s t : State} (h : stepWith m s = .next t) :
    s.halted = false ∧
    ((255 < s.pc ∧ t = s.raise (.invalidAddress s.pc .opcodeFetch)) ∨
     (∃ k, decodeWith m s.fetch = .missingOperand k ∧
        t = s.raise (.invalidAddress (s.pc + k.offset : Nat) (.operand k))) ∨
     (∃ op, decodeWith m s.fetch = .unrecognized op ∧
        t = (withEvents s (unreadReports s.pc 0)).raise (.unrecognizedInstruction op)) ∨
     (∃ i, decodeWith m s.fetch = .instr i ∧
        exec i (withEvents s (unreadReports s.pc i.op.operandCount)) = .next t)) := by
  unfold stepWith at h
  cases hh : s.halted with
  | true => simp [hh] at h
  | false =>
    refine ⟨rfl, ?_⟩
    simp only [hh, Bool.false_eq_true, if_false, runningStep] at h
    split at h
    · next hd =>
      refine .inl ⟨?_, ?_⟩
      · by_contra hp
        rw [State.fetch_in (by omega)] at hd
        exact decodeWith_cons_ne_noOpcode _ _ _ hd
      · cases h; rfl
    · next k hd => cases h; exact .inr (.inl ⟨k, hd, rfl⟩)
    · next op hd => cases h; rw [State.reportOperands_eq]; exact .inr (.inr (.inl ⟨op, hd, rfl⟩))
    · next i hd => rw [State.reportOperands_eq] at h; exact .inr (.inr (.inr ⟨i, hd, h⟩))

/-- A decoded instruction was read from the bytes of its own encoding, all of them in memory. -/
theorem decodeOperands_instr {x : Op} {rest : List Byte} {i : Instr} (h : decodeOperands x rest = .instr i) :
    i.op = x ∧ ∃ more, rest = i.operandBytes ++ more := by
  cases x <;> rcases rest with _ | ⟨a, _ | ⟨b, more⟩⟩ <;> simp only [decodeOperands, decodeF1, decodeF2] at h <;> cases h <;>
    exact ⟨rfl, _, rfl⟩

theorem stepWith_running {m : OpcodeMap} {s : State} (h : s.halted = false) : stepWith m s = runningStep m s := by
  simp [stepWith, h]

/-- The fetch at an encoding in memory reads that encoding first (R101, R102). -/
theorem State.fetch_of_holdsBytes {m : OpcodeMap} {s : State} {i : Instr} (h : holdsBytes s s.pc (encodeWith m i)) :
    ∃ more, s.fetch = encodeWith m i ++ more := by
  obtain ⟨h0, h1⟩ := holdsBytes_cons.1 h
  obtain ⟨hp, h0⟩ := memRead_ok h0
  rw [State.fetch_in hp, h0]
  cases i
  case hlt | ret => exact ⟨_, rfl⟩
  all_goals
    obtain ⟨g1, h2⟩ := holdsBytes_cons.1 h1
    obtain ⟨hp1, g1⟩ := memRead_ok g1
    rw [if_pos hp1, g1]
  case ldi | add | mul =>
    obtain ⟨g2, -⟩ := holdsBytes_cons.1 h2
    obtain ⟨hp2, g2⟩ := memRead_ok g2
    rw [if_pos hp2, g2]
    exact ⟨_, rfl⟩
  all_goals exact ⟨_, rfl⟩

end Sys2Proof.Machine
end

