-- ==== Sys2Proof/Laws/PerInstr.lean ====
section
/-! SUPPORT. Statements made per instruction: an instruction's encoding is as long as the top two bits of its opcode
byte say, under every opcode map that meets spec/30_encoding.md R79 (R70, R71). -/

namespace Sys2Proof.Laws.EncodedLength

/-- The encoding's length is `op[7:6] + 1` of its first byte. -/
def Statement (i : Instr) : Prop :=
  ∀ m : OpcodeMap, m.Valid → (encodeWith m i).length = opLen (m i.op)

theorem hlt : Statement .hlt := fun _ h => encodeWith_length h _
theorem ldi (rA imm : Byte) : Statement (.ldi rA imm) := fun _ h => encodeWith_length h _
theorem prn (rA : Byte) : Statement (.prn rA) := fun _ h => encodeWith_length h _
theorem add (rA rB : Byte) : Statement (.add rA rB) := fun _ h => encodeWith_length h _
theorem mul (rA rB : Byte) : Statement (.mul rA rB) := fun _ h => encodeWith_length h _
theorem push (rA : Byte) : Statement (.push rA) := fun _ h => encodeWith_length h _
theorem pop (rA : Byte) : Statement (.pop rA) := fun _ h => encodeWith_length h _
theorem call (rA : Byte) : Statement (.call rA) := fun _ h => encodeWith_length h _
theorem ret : Statement .ret := fun _ h => encodeWith_length h _

end Sys2Proof.Laws.EncodedLength
end

