-- ==== Sys2Proof/Tests/Slice0.lean ====
section
/-! SUPPORT. Tests of the model against spec/95_test_vectors.md and the encoding tables of spec/30_encoding.md, the smoke
tests of WellFormed, and for every statement with hypotheses a witness that meets them. -/

namespace Sys2Proof.Tests

open Sys2Proof.Machine

/-! ## WellFormed: an ill-formed term for each check -/

theorem test_wellFormed_ldi_rA : (Instr.ldi 8 0).wellFormed = false := by decide
theorem test_wellFormed_prn_rA : (Instr.prn 8).wellFormed = false := by decide
theorem test_wellFormed_add_rA : (Instr.add 8 0).wellFormed = false := by decide
theorem test_wellFormed_add_rB : (Instr.add 0 9).wellFormed = false := by decide
theorem test_wellFormed_mul_rA : (Instr.mul 255 0).wellFormed = false := by decide
theorem test_wellFormed_mul_rB : (Instr.mul 0 8).wellFormed = false := by decide
theorem test_wellFormed_push_rA : (Instr.push 8).wellFormed = false := by decide
theorem test_wellFormed_pop_rA : (Instr.pop 9).wellFormed = false := by decide
theorem test_wellFormed_call_rA : (Instr.call 8).wellFormed = false := by decide
theorem test_wellFormed_accepts : (Instr.ldi 7 255).wellFormed = true ∧ Instr.ret.wellFormed = true := by decide

/-! ## Decode: words written out from R73 and R74 -/

theorem test_decode_hlt : decode [0b00000001] = .instr .hlt := by decide
theorem test_decode_ldi : decode [0b10000010, 0b00000101, 0b11001000] = .instr (.ldi 5 200) := by decide
theorem test_decode_prn : decode [0b01000111, 0b00000101, 0b00000000] = .instr (.prn 5) := by decide
theorem test_decode_add : decode [0b10100000, 0b00000000, 0b00000001] = .instr (.add 0 1) := by decide
theorem test_decode_mul : decode [0b10100010, 0b00000010, 0b00000011] = .instr (.mul 2 3) := by decide
theorem test_decode_push : decode [0b01000101, 0b00000100] = .instr (.push 4) := by decide
theorem test_decode_pop : decode [0b01000110, 0b00000111] = .instr (.pop 7) := by decide
theorem test_decode_call : decode [0b01010000, 0b00000001] = .instr (.call 1) := by decide
theorem test_decode_ret : decode [0b00010001, 0b11111111] = .instr .ret := by decide
/-- VE4: bits 7:6 = 11 is no instruction. -/
theorem test_decode_unrecognized : decode [0xC0, 0, 0] = .unrecognized 0xC0 := by decide
theorem test_decode_missing : decode [0xA0, 0] = .missingOperand .operand2 ∧ decode [0x82] = .missingOperand .operand1 := by decide
theorem test_decodeTableWord : decodeTableWord 24 0xC80582 = some (.ldi 5 200) ∧ decodeTableWord 8 0x47 = some (.prn 0) := by decide
theorem test_encode_ldi : encode (.ldi 0 8) = [0x82, 0x00, 0x08] := by decide

/-! ## One step on a small state -/

/-- The constructed state with R0..R6 as given, SP and pc set, and bytes placed at pc. -/
def at_ (regs : Vector Byte 7) (sp : Byte) (p : Nat) (bytes : List Byte) : State :=
  (((State.construct regs).setReg .sp sp).place p bytes).setPc p

/-- Registers all zero but the one given. -/
def only (r : Fin 7) (v : Byte) : Vector Byte 7 := (Vector.replicate 7 0).set r v

/-- A value read off the state a step answers. -/
def see {α : Type} (f : State → α) : Result → Option α
  | .next t => some (f t)
  | .fault _ => none
  | .refused _ => none

/-- VD1. -/
theorem test_hlt : see (fun t => (t.halted, t.pc, t.out)) (step (at_ (only 0 0) 0xF4 0 [0x01])) =
    some (true, 1, [.haltNotice]) := by decide
/-- VD3: HLT at 255. -/
theorem test_hlt_top : see (fun t => (t.halted, t.pc, t.fault, t.out)) (step (at_ (only 0 0) 0xF4 255 [0x01])) =
    some (true, 256, none, [.report (.invalidAddress 256 255 .operand1), .report (.invalidAddress 257 255 .operand2), .haltNotice]) := by
  decide
/-- VD4. -/
theorem test_ldi : see (fun t => (t.reg 3, t.pc)) (step (at_ (only 0 0) 0xF4 0 [0x82, 3, 255])) = some (255, 3) := by decide
/-- VD6: operand2 past memory. -/
theorem test_ldi_missing : see (fun t => (t.out, t.pc)) (step (at_ (only 0 0) 0xF4 254 [0x82, 0])) =
    some ([.faultNotice ⟨254, .invalidAddress 256 (.operand .operand2)⟩], 254) := by decide
/-- VD9. -/
theorem test_prn_sp : see (fun t => (t.out, t.pc)) (step (at_ (only 0 0) 0xF4 0 [0x47, 7])) = some ([.print 244], 2) := by decide
/-- VD10, first step. -/
theorem test_prn_254 : see (fun t => (t.out, t.pc)) (step (at_ (only 0 7) 0xF4 254 [0x47, 0])) =
    some ([.report (.invalidAddress 256 254 .operand2), .print 7], 256) := by decide
/-- VA1. -/
theorem test_add_wraps : see (fun t => (t.reg 0, t.reg 1, t.pc)) (step (at_ #v[200, 100, 0, 0, 0, 0, 0] 0xF4 0 [0xA0, 0, 1])) =
    some (44, 100, 3) := by decide
/-- VA4: the source is the destination. -/
theorem test_add_self : see (fun t => t.reg 2) (step (at_ (only 2 100) 0xF4 0 [0xA0, 2, 2])) = some 200 := by decide
/-- VA6. -/
theorem test_mul_wraps : see (fun t => (t.reg 0, t.reg 1)) (step (at_ #v[255, 255, 0, 0, 0, 0, 0] 0xF4 0 [0xA2, 0, 1])) =
    some (1, 255) := by decide
/-- VA9's form for MUL: rB is checked after rA. -/
theorem test_mul_illegal : see (fun t => t.out) (step (at_ (only 0 0) 0xF4 0 [0xA2, 0, 9])) =
    some [.faultNotice ⟨0, .illegalRegister 9 .rB⟩] := by decide
/-- VS2: PUSH R7 stores the new SP. -/
theorem test_push_sp : see (fun t => (t.reg .sp, memRead t.mem 0xF3)) (step (at_ (only 0 0) 0xF4 0 [0x45, 7])) =
    some (0xF3, .ok 0xF3) := by decide
/-- VS3: PUSH with SP = 0. -/
theorem test_push_fault : see (fun t => (t.out, t.reg .sp, memRead t.mem 0)) (step (at_ (only 0 0) 0 0 [0x45, 0])) =
    some ([.faultNotice ⟨0, .invalidAddress (-1) .stackPush⟩], 0, .ok 0x45) := by decide
/-- VS6: POP on the empty stack. -/
theorem test_pop_empty : see (fun t => (t.out, t.reg 0, t.reg .sp, t.pc)) (step (at_ (only 0 9) 0xF4 0 [0x46, 0])) =
    some ([.report (.stackEmpty 0)], 9, 0xF4, 2) := by decide
/-- VS7: POP R7. -/
theorem test_pop_sp : see (fun t => t.reg .sp) (step ((at_ (only 0 0) 0xF3 0 [0x46, 7]).store 0xF3 0x20)) = some 0x21 := by decide
/-- VC1. -/
theorem test_call : see (fun t => (t.pc, t.reg .sp, memRead t.mem 0xF3)) (step (at_ (only 1 6) 0xF4 3 [0x50, 1])) =
    some (6, 0xF3, .ok 5) := by decide
/-- VC5: StackPush comes before ReturnAddress. -/
theorem test_call_priority : see (fun t => t.out) (step (at_ (only 0 0) 0 254 [0x50, 0])) =
    some [.report (.invalidAddress 256 254 .operand2), .faultNotice ⟨254, .invalidAddress (-1) .stackPush⟩] := by decide
/-- VC7. -/
theorem test_ret : see (fun t => (t.pc, t.reg .sp)) (step ((at_ (only 0 0) 0xF3 11 [0x11]).store 0xF3 5)) = some (5, 0xF4) := by decide
/-- VC9. -/
theorem test_ret_fault : see (fun t => (t.out, t.reg .sp)) (step (at_ (only 0 0) 0xFF 0 [0x11])) =
    some ([.faultNotice ⟨0, .invalidAddress 256 .stackPop⟩], 0xFF) := by decide
/-- VE5 and VE7: the fetch past memory, and an unrecognised opcode at 255. -/
theorem test_fetch_past : see (fun t => t.out) (step (at_ (only 0 0) 0xF4 256 [])) =
    some [.faultNotice ⟨256, .invalidAddress 256 .opcodeFetch⟩] := by decide
theorem test_unrecognized_255 : see (fun t => t.out) (step (at_ (only 0 0) 0xF4 255 [0xFF])) =
    some [.report (.invalidAddress 256 255 .operand1), .report (.invalidAddress 257 255 .operand2),
      .faultNotice ⟨255, .unrecognizedInstruction 0xFF⟩] := by decide
/-- P7: the record's code and kind. -/
theorem test_fault_code : (FaultRecord.mk 3 (.unrecognizedInstruction 0xFF)).code = 4 := by decide
/-- W1: `Print(72)` is rendered `72` and a line end. -/
theorem test_render_print : (Event.print 72).render = "72\n" := by decide

/-! ## Witnesses: concrete cases that meet every hypothesis of a statement together -/

theorem witness_DecodeOfEncodeIsTheInstruction : ∃ m : OpcodeMap, m.Valid := ⟨_, opcodeMap_valid⟩
theorem witness_BytesDecodedBeginWithTheEncoding : decodeWith opcodeMap [0x82, 0, 8, 9] = .instr (.ldi 0 8) := by decide
theorem witness_UnrecognizedOpcodesAre247 : opcodeMap.Valid ∧ (0xC0 : Byte).toNat / 64 = 3 ∧ opcodeMap.lookup 0xFF = none :=
  ⟨opcodeMap_valid, by decide⟩
theorem witness_LengthComesFromTopBits : opcodeMap.Valid ∧ decodeWith opcodeMap (0xA2 :: [0, 1]) = .instr (.mul 0 1) :=
  ⟨opcodeMap_valid, by decide⟩
theorem witness_MemoryReadsWhatWasWritten : Memory.wf [(0, 1), (255, 7)] ∧ ((0 : Int) ≤ 255 ∧ (255 : Int) ≤ 255) ∧
    ¬ ((0 : Int) ≤ -1 ∧ (-1 : Int) ≤ 255) ∧ ¬ ((0 : Int) ≤ 256 ∧ (256 : Int) ≤ 255) := by decide
theorem witness_MemoriesReadingAlikeAreEqual : ∃ m m' : Memory, m.wf ∧ m'.wf ∧ ∀ a : Int, memRead m a = memRead m' a :=
  ⟨[(3, 4)], [(3, 4)], by decide, by decide, fun _ => rfl⟩
theorem witness_StepRunsTheDecodedInstruction :
    (at_ (only 0 7) 0xF4 254 [0x47, 0]).halted = false ∧ decode (at_ (only 0 7) 0xF4 254 [0x47, 0]).fetch = .instr (.prn 0) := by
  decide
theorem holds_two {s : State} {p : Nat} {a b : Byte} (ha : memRead s.mem p = .ok a) (hb : memRead s.mem (p + 1 : Nat) = .ok b) :
    holdsBytes s p [a, b] := holdsBytes_cons.2 ⟨ha, holdsBytes_cons.2 ⟨hb, holdsBytes_nil _ _⟩⟩
theorem witness_InstructionInMemoryIsExecuted : opcodeMap.Valid ∧ ∃ s : State, s.halted = false ∧
    holdsBytes s s.pc (encodeWith opcodeMap (.push 6)) ∧ s.pc ≤ 253 :=
  ⟨opcodeMap_valid, at_ (only 0 0) 0xF4 253 [0x45, 6], by decide, holds_two (by decide) (by decide), by decide⟩
theorem witness_RunningMachineAlwaysSteps : State.reset.halted = false ∧ (State.reset.halt).halted = true := by decide
theorem witness_OpcodeFetchPastMemoryFaults :
    (∃ s : State, s.halted = false ∧ 256 ≤ s.pc) ∧ (∃ s : State, s.halted = false ∧ s.pc < 256) :=
  ⟨⟨at_ (only 0 0) 0xF4 256 [], by decide⟩, ⟨at_ (only 0 0) 0xF4 255 [], by decide⟩⟩
/-- A consumed operand past 255 (LDI at 254), an unread one (PRN at 254), and an unrecognised opcode. -/
theorem witness_OperandAddressVerdicts : opcodeMap.Valid ∧
    (memRead (at_ (only 0 0) 0xF4 254 [0x82]).mem 254 = .ok 0x82 ∧ opcodeMap.lookup 0x82 = some .ldi ∧
      OperandPos.operand2.offset ≤ Op.ldi.operandCount ∧ 255 < 254 + OperandPos.operand2.offset ∧
      254 + OperandPos.operand1.offset ≤ 255) ∧
    (memRead (at_ (only 0 0) 0xF4 254 [0x47]).mem 254 = .ok 0x47 ∧ opcodeMap.lookup 0x47 = some .prn ∧
      254 + Op.prn.operandCount ≤ 255) ∧
    (memRead (at_ (only 0 0) 0xF4 255 [0xFF]).mem 255 = .ok 0xFF ∧ opcodeMap.lookup 0xFF = none) :=
  ⟨opcodeMap_valid, by decide⟩
theorem witness_UnrecognizedOpcodeFaults : (at_ (only 0 0) 0xF4 0 [0xFF]).halted = false ∧
    memRead (at_ (only 0 0) 0xF4 0 [0xFF]).mem 0 = .ok 0xFF ∧ opcodeMap.lookup 0xFF = none := by decide
theorem witness_IllegalRegisterOperandFaults :
    (registerOperands (.add 7 8) = [(.rA, 7)] ++ (.rB, 8) :: [] ∧ (7 : Byte).toNat < 8 ∧ 8 ≤ (8 : Byte).toNat) ∧
    (∃ t, exec (.add 7 0) State.reset = .next t ∧ State.reset.fault = none) ∧
    (∃ t, exec (.push 0) (at_ (only 0 0) 0 0 []) = .next t ∧ t.fault = some ⟨0, .invalidAddress (-1) .stackPush⟩) :=
  ⟨by decide, ⟨_, rfl, rfl⟩, ⟨_, rfl, rfl⟩⟩
/-- An illegal register at pc 0: the fault of a running machine with no fault before. -/
theorem witness_MachineFaultsArePrecise : ∃ s t f, s.fault = none ∧ stepWith opcodeMap s = .next t ∧ t.fault = some f :=
  ⟨at_ (only 0 0) 0xF4 0 [0x47, 8], _, _, rfl, rfl, rfl⟩
theorem witness_StepEventsAreReportsThenOneEvent : ∃ s t, stepWith opcodeMap s = .next t ∧ t.out.length = 3 :=
  ⟨at_ (only 0 0) 0xF4 255 [0x01], _, rfl, rfl⟩
theorem witness_HaltedIsSetByHltAndFaultsOnly : opcodeMap.Valid ∧
    (∃ s : State, s.halted = false ∧ memRead s.mem s.pc = .ok (opcodeMap .hlt)) ∧
    (∃ s t, s.fault = none ∧ stepWith opcodeMap s = .next t ∧ t.fault ≠ none ∧ t.halted = true) :=
  ⟨opcodeMap_valid, ⟨at_ (only 0 0) 0xF4 0 [0x01], by decide⟩,
    ⟨at_ (only 0 0) 0xF4 0 [0xFF], _, rfl, rfl, Option.some_ne_none _, rfl⟩⟩
/-- One completed step each of LDI, CALL and RET. -/
theorem witness_PcAdvancesByOpcodeLength : opcodeMap.Valid ∧
    (∃ s t, s.fault = none ∧ memRead s.mem s.pc = .ok 0x82 ∧ opcodeMap.lookup 0x82 = some .ldi ∧
      stepWith opcodeMap s = .next t ∧ t.fault = none) ∧
    (∃ s t, s.fault = none ∧ memRead s.mem s.pc = .ok 0x50 ∧ opcodeMap.lookup 0x50 = some .call ∧
      stepWith opcodeMap s = .next t ∧ t.fault = none) ∧
    (∃ s t, s.fault = none ∧ memRead s.mem s.pc = .ok 0x11 ∧ opcodeMap.lookup 0x11 = some .ret ∧
      stepWith opcodeMap s = .next t ∧ t.fault = none) :=
  ⟨opcodeMap_valid, ⟨at_ (only 0 0) 0xF4 253 [0x82, 0, 1], _, rfl, rfl, by decide, rfl, rfl⟩,
    ⟨at_ (only 1 6) 0xF4 3 [0x50, 1], _, rfl, rfl, by decide, rfl, rfl⟩,
    ⟨at_ (only 0 0) 0xF4 11 [0x11], _, rfl, rfl, by decide, rfl, rfl⟩⟩
theorem witness_StepIsThePseudocode : opcodeMap.Valid ∧ State.reset.halted = false := ⟨opcodeMap_valid, rfl⟩

/-- A running state with HLT at pc 0 meets the invariants. -/
def runningHlt : State := at_ (only 0 0) 0xF4 0 [0x01]

theorem runningHlt_inv : Inv runningHlt where
  memWf := by decide
  faultHalts := by decide
  pcBound := by decide
  runningOut := fun _ _ h => absurd h (List.not_mem_nil)
  haltedOut := fun h => absurd h (by decide)
  faultRecord := fun _ h => by cases h

theorem witness_EveryStepKeepsTheInvariants : ∃ s t, Inv s ∧ stepWith opcodeMap s = .next t := ⟨_, _, runningHlt_inv, rfl⟩
theorem witness_ReachableStatesMeetTheInvariants : ∃ s, Reachable opcodeMap s := ⟨_, .boot (only 0 0) [0x01] _ rfl⟩
theorem witness_RunEndsNormallyOrFaulted : ∃ s t, Inv s ∧ stepWith opcodeMap s = .next t ∧ t.halted = true :=
  ⟨_, _, runningHlt_inv, rfl, rfl⟩
theorem witness_RunEndsInOneFinalState : ∃ t, runWith opcodeMap 1 runningHlt = some t := ⟨_, rfl⟩
theorem witness_UnsupportedAluOperationIsUnreachable :
    ∃ s t f, s.fault = none ∧ stepWith opcodeMap s = .next t ∧ t.fault = some f :=
  ⟨at_ (only 0 0) 0xF4 0 [0xA0, 0, 9], _, _, rfl, rfl, rfl⟩
theorem witness_ConstructionState : (0 : Int) ≤ 255 ∧ (255 : Int) ≤ 255 := by decide
theorem witness_LoadPlacesTheImage : (List.replicate 256 (1 : Byte)).length ≤ 256 ∧ 256 < (List.replicate 257 (1 : Byte)).length := by
  rw [List.length_replicate, List.length_replicate]
  decide
theorem witness_HltHaltsTheMachine : ∃ s : State, s.halted = false ∧ memRead s.mem s.pc = .ok 0x01 :=
  ⟨runningHlt, by decide⟩
/-- Clause by clause: a legal and an illegal register, LDI at 254 and at 255. -/
theorem witness_LdiLoadsTheImmediate : (7 : Byte).toNat < 8 ∧ 8 ≤ (8 : Byte).toNat ∧
    (∃ s : State, s.halted = false ∧ s.pc = 254 ∧ memRead s.mem 254 = .ok 0x82) ∧
    (∃ s : State, s.halted = false ∧ s.pc = 255 ∧ memRead s.mem 255 = .ok 0x82) :=
  ⟨by decide, by decide, ⟨at_ (only 0 0) 0xF4 254 [0x82], by decide⟩, ⟨at_ (only 0 0) 0xF4 255 [0x82], by decide⟩⟩
theorem witness_PrnPrintsTheRegister : (7 : Byte).toNat < 8 ∧ 8 ≤ (8 : Byte).toNat ∧
    (∃ s : State, s.halted = false ∧ s.pc = 255 ∧ memRead s.mem 255 = .ok 0x47) ∧
    (∃ s : State, s.halted = false ∧ s.pc = 254 ∧ memRead s.mem 254 = .ok 0x47 ∧ memRead s.mem 255 = .ok 7) :=
  ⟨by decide, by decide, ⟨at_ (only 0 0) 0xF4 255 [0x47], by decide⟩, ⟨at_ (only 0 0) 0xF4 254 [0x47, 7], by decide⟩⟩
theorem witness_AddWritesTheSum : ((7 : Byte).toNat < 8 ∧ (0 : Byte).toNat < 8) ∧ 8 ≤ (8 : Byte).toNat ∧
    (∃ s : State, s.halted = false ∧ s.pc = 254 ∧ memRead s.mem 254 = .ok 0xA0) ∧
    (∃ s : State, s.halted = false ∧ s.pc = 255 ∧ memRead s.mem 255 = .ok 0xA0) :=
  ⟨by decide, by decide, ⟨at_ (only 0 0) 0xF4 254 [0xA0], by decide⟩, ⟨at_ (only 0 0) 0xF4 255 [0xA0], by decide⟩⟩
theorem witness_MulWritesTheProduct : ((7 : Byte).toNat < 8 ∧ (0 : Byte).toNat < 8) ∧ 8 ≤ (8 : Byte).toNat ∧
    (∃ s : State, s.halted = false ∧ s.pc = 254 ∧ memRead s.mem 254 = .ok 0xA2) ∧
    (∃ s : State, s.halted = false ∧ s.pc = 255 ∧ memRead s.mem 255 = .ok 0xA2) :=
  ⟨by decide, by decide, ⟨at_ (only 0 0) 0xF4 254 [0xA2], by decide⟩, ⟨at_ (only 0 0) 0xF4 255 [0xA2], by decide⟩⟩
/-- SP = 1, the least that pushes, SP = 0, an illegal register, PUSH at 255. -/
theorem witness_PushStoresBelowTheStackPointer : (7 : Byte).toNat < 8 ∧ 8 ≤ (8 : Byte).toNat ∧
    (∃ s : State, 1 ≤ (s.reg .sp).toNat ∧ s.mem.wf) ∧ (∃ s : State, (s.reg .sp).toNat = 0) ∧
    (∃ s : State, s.halted = false ∧ s.pc = 255 ∧ memRead s.mem 255 = .ok 0x45) :=
  ⟨by decide, by decide, ⟨at_ (only 0 0) 1 0 [0x45], by decide⟩, ⟨at_ (only 0 0) 0 0 [], by decide⟩,
    ⟨at_ (only 0 0) 0xF4 255 [0x45], by decide⟩⟩
/-- The empty stack; SP = 254 for a register below 7; a popped byte 254 into R7; SP = 255; a popped byte 255 into R7. -/
theorem witness_PopReadsTheTopOfStack : (6 : Byte).toNat < 7 ∧ (7 : Byte).toNat = 7 ∧ 8 ≤ (8 : Byte).toNat ∧
    (∃ s : State, s.reg .sp = 0xF4) ∧
    (∃ s : State, memRead s.mem (s.reg .sp).toNat = .ok 254 ∧ s.reg .sp ≠ 0xF4 ∧ (s.reg .sp).toNat ≤ 254 ∧ (254 : Byte).toNat ≤ 254) ∧
    (∃ s : State, memRead s.mem (s.reg .sp).toNat = .ok 255 ∧ s.reg .sp ≠ 0xF4 ∧ (s.reg .sp).toNat = 255 ∧ (255 : Byte).toNat = 255) ∧
    (∃ s : State, s.halted = false ∧ s.pc = 255 ∧ memRead s.mem 255 = .ok 0x46) :=
  ⟨by decide, by decide, by decide, ⟨at_ (only 0 0) 0xF4 0 [], by decide⟩, ⟨(at_ (only 0 0) 254 0 []).store 254 254, by decide⟩,
    ⟨(at_ (only 0 0) 255 0 []).store 255 255, by decide⟩, ⟨at_ (only 0 0) 0xF4 255 [0x46], by decide⟩⟩
/-- SP = 1 at 253; SP = 0; SP = 1 at 254; an illegal register; CALL at 255. -/
theorem witness_CallPushesTheReturnAddress : (7 : Byte).toNat < 8 ∧ 8 ≤ (8 : Byte).toNat ∧
    (∃ s : State, 1 ≤ (s.reg .sp).toNat ∧ s.pc + 2 ≤ 255 ∧ s.mem.wf) ∧ (∃ s : State, (s.reg .sp).toNat = 0) ∧
    (∃ s : State, 1 ≤ (s.reg .sp).toNat ∧ 255 < s.pc + 2) ∧
    (∃ s : State, s.halted = false ∧ s.pc = 255 ∧ memRead s.mem 255 = .ok 0x50) :=
  ⟨by decide, by decide, ⟨at_ (only 0 0) 1 253 [0x50], by decide⟩, ⟨at_ (only 0 0) 0 0 [], by decide⟩,
    ⟨at_ (only 0 0) 1 254 [0x50], by decide⟩, ⟨at_ (only 0 0) 0xF4 255 [0x50], by decide⟩⟩
/-- SP = 254 with RET in memory; SP = 255. -/
theorem witness_RetPopsThePc :
    (∃ s : State, memRead s.mem (s.reg .sp).toNat = .ok 5 ∧ (s.reg .sp).toNat ≤ 254 ∧ s.halted = false ∧
      memRead s.mem s.pc = .ok 0x11) ∧
    (∃ s : State, memRead s.mem (s.reg .sp).toNat = .ok 0 ∧ (s.reg .sp).toNat = 255) :=
  ⟨⟨(at_ (only 0 0) 254 11 [0x11]).store 254 5, by decide⟩, ⟨at_ (only 0 0) 255 0 [], by decide⟩⟩
theorem witness_OnlyListedSlotsAreWritten :
    ∃ t, exec (.pop 0) (at_ (only 0 0) 0xF3 0 []) = .next t ∧ (3 : Reg).val ∉ writesSlots (.pop 0) := ⟨_, rfl, by decide⟩
theorem witness_UnreadSlotsDoNotMatter : (7 : Reg).val ∉ readsSlots (.ldi 7 1) ∧ (0 : Reg).val ∉ readsSlots (.call 1) := by decide
theorem witness_OnlyPushAndCallStore : (∃ t, exec (.push 0) State.reset = .next t) ∧
    storesAt (.push 0) State.reset = some State.reset.pushAddr ∧ (∃ t, exec .ret State.reset = .next t) ∧
    storesAt .ret State.reset = none := ⟨⟨_, rfl⟩, rfl, ⟨_, rfl⟩, rfl⟩
theorem witness_ControlStateFrame : (∃ t, exec (.prn 7) State.reset = .next t) ∧ (∃ t, exec (.pop 0) State.reset = .next t) :=
  ⟨⟨_, rfl⟩, ⟨_, rfl⟩⟩
theorem witness_OnlyCallAndRetTransferControl :
    ∃ t, exec (.add 0 1) State.reset = .next t ∧ (Instr.add 0 1).op ≠ .call ∧ (Instr.add 0 1).op ≠ .ret := ⟨_, rfl, by decide⟩
theorem witness_PushThenPopRestores : ∃ s : State, (7 : Byte).toNat < 8 ∧ s.mem.wf ∧ s.reg .sp ≠ 0 ∧ s.reg .sp ≠ 0xF5 :=
  ⟨at_ (only 0 0) 0xF4 0 [0x45, 7], by decide⟩
theorem witness_StackHolds244Pushes : (7 : Byte).toNat < 8 ∧ State.reset.halted = false ∧ State.reset.reg .sp = 0xF4 := by decide
/-- A RET right after the CALL meets every hypothesis. -/
theorem witness_CallThenRetResumes : ∃ s t, s.mem.wf ∧ s.fault = none ∧ exec (.call 1) s = .next t ∧ t.fault = none :=
  ⟨at_ (only 1 6) 0xF4 3 [0x50, 1], _, by decide, rfl, rfl, rfl⟩
/-- P5: the PUSH at 6 writes the byte at 8. -/
theorem witness_NextFetchSeesTheStoredByte : ∃ s t, s.mem.wf ∧ s.fault = none ∧ exec (.push 0) s = .next t ∧ t.fault = none ∧
    s.pushAddr = t.pc := ⟨at_ (only 0 1) 9 6 [0x45, 0], _, by decide, rfl, rfl, rfl, rfl⟩
/-- PUSH R6 and CALL R6 at 253 with SP = 255, the highest place the premise allows. -/
theorem witness_OperandsAreLatchedBeforeTheWrite :
    (∃ s : State, s.halted = false ∧ s.mem.wf ∧ s.pc ≤ 253 ∧ (s.reg .sp).toNat = s.pc + 2 ∧
      memRead s.mem (s.pc + 1 : Nat) = .ok (BitVec.ofNat 8 (6 : Reg)) ∧ memRead s.mem s.pc = .ok 0x45) ∧
    (∃ s : State, s.halted = false ∧ s.mem.wf ∧ s.pc ≤ 253 ∧ (s.reg .sp).toNat = s.pc + 2 ∧
      memRead s.mem (s.pc + 1 : Nat) = .ok (BitVec.ofNat 8 (6 : Reg)) ∧ memRead s.mem s.pc = .ok 0x50) :=
  ⟨⟨at_ (only 6 9) 255 253 [0x45, 6], by decide⟩, ⟨at_ (only 6 9) 255 253 [0x50, 6], by decide⟩⟩

end Sys2Proof.Tests
end

section
/-! PROOFS, family 10_state. What reading a memory tells about its listed cells, and memories that read alike (R21). -/

namespace Sys2Proof.Machine

/-- A listed cell is what its address reads, when no address is listed twice. -/
theorem Memory.cell_of_mem {m : Memory} (hm : m.Pairwise fun x y => x.1 < y.1) {c : Host.Cell} (hc : c ∈ m) :
    m.cell c.1 = c.2 := by
  induction m with
  | nil => exact absurd hc List.not_mem_nil
  | cons d rest ih =>
    have ⟨hd, hrest⟩ := List.pairwise_cons.1 hm
    rcases List.mem_cons.1 hc with rfl | hc
    · simp [Memory.cell]
    · simp [Memory.cell, Nat.ne_of_lt (hd c hc), ih hrest hc]

/-- An address that does not read as zero is listed. -/
theorem Memory.mem_of_cell_ne_zero {m : Memory} {a : Nat} (h : m.cell a ≠ 0) : (a, m.cell a) ∈ m := by
  induction m with
  | nil => exact absurd rfl h
  | cons d rest ih =>
    by_cases hd : d.1 = a
    · subst hd; simp [Memory.cell]
    · have hcell : Memory.cell (d :: rest) a = Memory.cell rest a := if_neg hd
      rw [hcell] at h ⊢
      exact List.mem_cons_of_mem _ (ih h)

/-- A cell listed by a memory in canonical form is listed by every memory that reads alike. -/
theorem Memory.mem_of_reads_alike {m m' : Memory} (hm : m.wf) (h : ∀ a : Int, memRead m a = memRead m' a)
    {c : Host.Cell} (hc : c ∈ m) : c ∈ m' := by
  obtain ⟨hsorted, hcells⟩ := hm
  obtain ⟨hle, hne⟩ := hcells c hc
  have hread : memRead m' c.1 = .ok c.2 := by
    rw [← h, memRead_natCast, if_pos (show c.1 ≤ 255 from hle), Memory.cell_of_mem hsorted hc]
  obtain ⟨-, hcell⟩ := memRead_ok hread
  have := Memory.mem_of_cell_ne_zero (m := m') (a := c.1) (hcell ▸ hne)
  rwa [hcell] at this

/-- Settles O7: each memory lists the cells of the other, and a sorted list is determined by its members. -/
theorem memoriesReadingAlikeAreEqual : Obligations.MemoriesReadingAlikeAreEqual := by
  intro m m' hm hm' h
  have : Std.Irrefl fun x y : Host.Cell => x.1 < y.1 := ⟨fun c => Nat.lt_irrefl c.1⟩
  have : Std.Antisymm fun x y : Host.Cell => x.1 < y.1 := ⟨fun c d hcd hdc => absurd hdc (Nat.lt_asymm hcd)⟩
  exact hm.1.eq_of_mem_iff hm'.1 fun c =>
    ⟨Memory.mem_of_reads_alike hm h, Memory.mem_of_reads_alike hm' fun a => (h a).symm⟩

end Sys2Proof.Machine
end

section
/-! PROOFS, family 10_state. The frames of an instruction that completes: registers, output and pc (R23, R26-R29). -/

namespace Sys2Proof.Machine

/-- A slot whose number is not the operand byte is not the slot the byte names. -/
theorem slot_ne {b : Byte} {r q : Reg} (hr : slot b = some r) (hq : q.val ≠ b.toNat) : q ≠ r := by
  rw [slot_eq_some.1 hr] at hq
  exact fun h => hq (congrArg Fin.val h)

theorem ne_sp {q : Reg} (hq : q.val ≠ 7) : q ≠ .sp := fun h => hq (congrArg Fin.val h)

/-- A register write leaves every other slot alone. -/
theorem State.reg_setReg_ne (s : State) {r q : Reg} (v : Byte) (h : q ≠ r) : (s.setReg r v).reg q = s.reg q := by
  rw [State.reg_setReg, if_neg h]

/-- A completed instruction writes no slot outside its `writes` column (R23). -/
theorem Completes.reg_eq {i : Instr} {s t : State} {q : Reg} (h : Completes i s t) (hq : q.val ∉ writesSlots i) :
    t.reg q = s.reg q := by
  cases i <;> simp only [Completes] at h <;>
    simp only [writesSlots, List.mem_cons, List.not_mem_nil, or_false, not_or] at hq
  case hlt => subst h; rfl
  case prn => obtain ⟨a, -, rfl⟩ := h; rfl
  case ldi => obtain ⟨a, ha, rfl⟩ := h; exact s.reg_setReg_ne _ (slot_ne ha hq)
  case add | mul => obtain ⟨a, b, ha, -, rfl⟩ := h; exact s.reg_setReg_ne _ (slot_ne ha hq)
  case push => obtain ⟨a, -, -, rfl⟩ := h; simp [State.reg_setReg_ne, ne_sp hq]
  case call => obtain ⟨a, -, -, -, rfl⟩ := h; simp [State.reg_setReg_ne, ne_sp hq]
  case ret => obtain ⟨-, rfl⟩ := h; exact s.reg_setReg_ne _ (ne_sp hq)
  case pop =>
    obtain ⟨hqa, hq7⟩ := hq
    obtain ⟨a, ha, ⟨-, rfl⟩ | ⟨-, -, rfl⟩⟩ := h
    · rfl
    · simp [State.reg_setReg_ne, ne_sp hq7, slot_ne ha hqa]

/-- A completed instruction other than CALL and RET leaves pc at the next instruction (R109). -/
theorem Completes.pc_eq {i : Instr} {s t : State} (h : Completes i s t) (hcall : i.op ≠ .call) (hret : i.op ≠ .ret) :
    t.pc = s.pc + i.op.length := by
  cases i <;> simp only [Completes] at h
  case hlt => subst h; rfl
  case ldi | prn => obtain ⟨a, -, rfl⟩ := h; rfl
  case add | mul => obtain ⟨a, b, -, -, rfl⟩ := h; rfl
  case push => obtain ⟨a, -, -, rfl⟩ := h; simp [Instr.op, Op.length, Op.operandCount]
  case pop => obtain ⟨a, -, ⟨-, rfl⟩ | ⟨-, -, rfl⟩⟩ := h <;> rfl
  case call => exact absurd rfl hcall
  case ret => exact absurd rfl hret

/-- Settles O37: a machine fault writes no register, and a completed instruction only its listed ones. -/
theorem onlyListedSlotsAreWritten : Obligations.OnlyListedSlotsAreWritten := by
  intro i s t q h hq
  rcases exec_next h with ⟨info, rfl, -⟩ | hc
  · rfl
  · exact hc.reg_eq hq

/-- Settles O40: the output of each instruction is read off its completed effect. -/
theorem controlStateFrame : Obligations.ControlStateFrame := by
  intro i s t h
  rcases exec_next h with ⟨info, rfl, -⟩ | hc
  · exact .inl ⟨info, s.raise_eq_faulted info⟩
  refine .inr ⟨hc.fault_eq, hc.halted_eq, ?_⟩
  cases i <;> simp only [Completes] at hc ⊢
  case hlt => subst hc; rfl
  case prn => obtain ⟨a, ha, rfl⟩ := hc; exact ⟨a, (slot_eq_some.1 ha).symm, rfl⟩
  case pop =>
    obtain ⟨a, -, ⟨he, rfl⟩ | ⟨hne, -, rfl⟩⟩ := hc
    · rw [if_pos he]; rfl
    · rw [if_neg hne]; exact (List.append_nil _).symm
  case ldi => obtain ⟨a, -, rfl⟩ := hc; rfl
  case add | mul => obtain ⟨a, b, -, -, rfl⟩ := hc; rfl
  case push => obtain ⟨a, -, -, rfl⟩ := hc; simp
  case call => obtain ⟨a, -, -, -, rfl⟩ := hc; simp
  case ret => obtain ⟨-, rfl⟩ := hc; rfl

/-- Settles O41: a completed instruction advances by its own length, and anything else it does is a fault. -/
theorem onlyCallAndRetTransferControl : Obligations.OnlyCallAndRetTransferControl := by
  intro i s t h hcall hret
  rcases exec_next h with ⟨info, rfl, -⟩ | hc
  · exact .inr ⟨info, s.raise_eq_faulted info⟩
  · rw [hc.pc_eq hcall hret, i.operandBytes_length]
    exact .inl rfl

end Sys2Proof.Machine
end

section
/-! PROOFS, family 10_state. Which bytes a step decodes, and the setters of `halted` (R27). -/

namespace Sys2Proof

/-- The decoder gives an encoded instruction back, whatever follows it (R74, R76, R79). -/
theorem decodeWith_encodeWith {m : OpcodeMap} (hm : m.Valid) (i : Instr) (rest : List Byte) :
    decodeWith m (encodeWith m i ++ rest) = .instr i := by
  simp only [encodeWith, List.cons_append, decodeWith, hm.lookup_byte]
  cases i <;> rfl

/-- Bytes that decode to an instruction begin with its encoding, under any map (R74, R76). -/
theorem eq_encodeWith_append_of_decodeWith {m : OpcodeMap} {bytes : List Byte} {i : Instr}
    (h : decodeWith m bytes = .instr i) : ∃ more, bytes = encodeWith m i ++ more := by
  cases bytes with
  | nil => cases h
  | cons op rest =>
    simp only [decodeWith] at h
    split at h
    · cases h
    · next x hx =>
      obtain ⟨hop, more, hrest⟩ := Machine.decodeOperands_instr h
      exact ⟨more, by rw [encodeWith, hop, OpcodeMap.lookup_some hx, hrest, List.cons_append]⟩

end Sys2Proof

namespace Sys2Proof.Machine

/-- The first byte a fetch reads is the byte at pc (R101). -/
theorem memRead_pc_of_fetch {s : State} {op : Byte} {rest : List Byte} (h : s.fetch = op :: rest) :
    memRead s.mem s.pc = .ok op := by
  by_cases hp : s.pc ≤ 255
  · rw [State.fetch_in hp] at h
    rw [memRead_natCast, if_pos hp, (List.cons.inj h).1]
  · rw [State.fetch_past (by omega)] at h
    cases h

/-- A running machine whose memory holds an encoding at pc executes that instruction after its operand reports
(R102-R104, R107). -/
theorem stepWith_of_holdsBytes {m : OpcodeMap} (hm : m.Valid) {s : State} {i : Instr} (hs : s.halted = false)
    (h : holdsBytes s s.pc (encodeWith m i)) :
    stepWith m s = exec i (withEvents s (unreadReports s.pc i.op.operandCount)) := by
  obtain ⟨more, hfetch⟩ := State.fetch_of_holdsBytes h
  rw [stepWith_running hs, runningStep, hfetch, decodeWith_encodeWith hm]
  exact congrArg (exec i) (s.reportOperands_eq (some i.op))

/-- HLT completes from every state: halted, and the fault record as before (R110, R130). -/
theorem exec_hlt_halts (s : State) : ∃ t, exec .hlt s = .next t ∧ t.halted = true ∧ t.fault = s.fault :=
  ⟨_, rfl, rfl, rfl⟩

/-- A step from a machine with no fault record either records a fault and halts, or completes an instruction read from pc
and then halts only for HLT. -/
theorem stepWith_halted_cases {m : OpcodeMap} {s t : State} (hf : s.fault = none) (h : stepWith m s = .next t) :
    (t.fault ≠ none ∧ t.halted = true) ∨
    (t.fault = none ∧ (t.halted = true → memRead s.mem s.pc = .ok (m .hlt))) := by
  obtain ⟨hs, ⟨-, rfl⟩ | ⟨k, -, rfl⟩ | ⟨op, -, rfl⟩ | ⟨i, hd, he⟩⟩ := stepWith_next h
  · exact .inl ⟨Option.some_ne_none _, rfl⟩
  · exact .inl ⟨Option.some_ne_none _, rfl⟩
  · exact .inl ⟨Option.some_ne_none _, rfl⟩
  · rcases exec_next he with ⟨info, rfl, -⟩ | hc
    · exact .inl ⟨Option.some_ne_none _, rfl⟩
    · refine .inr ⟨hc.fault_eq.trans hf, fun ht => ?_⟩
      by_cases hi : i = .hlt
      · subst hi
        obtain ⟨more, hfetch⟩ := eq_encodeWith_append_of_decodeWith hd
        exact memRead_pc_of_fetch hfetch
      · have : t.halted = false := (hc.halted_eq hi).trans hs
        rw [this] at ht
        cases ht

/-- Settles O17: construction by definition, HLT by running its byte, and every other step by `stepWith_halted_cases`. -/
theorem haltedIsSetByHltAndFaultsOnly : Obligations.HaltedIsSetByHltAndFaultsOnly := by
  refine ⟨fun _ => rfl, fun m s t h => (stepWith_next h).1, fun m hm s hs hread => ?_, fun m s t hf h => ?_⟩
  · rw [stepWith_of_holdsBytes (i := .hlt) hm hs (holdsBytes_cons.2 ⟨hread, holdsBytes_nil s _⟩)]
    exact exec_hlt_halts _
  · rcases stepWith_halted_cases hf h with ⟨hfault, hhalted⟩ | ⟨hnone, hread⟩
    · exact ⟨fun _ => hhalted, fun _ => .inl hfault⟩
    · exact ⟨fun hne => absurd hnone hne, fun ht => .inr (hread ht)⟩

end Sys2Proof.Machine
end

section
/-! PROOFS, family 10_state. Noninterference of unread register slots (R23, R25): two states that agree off a slot stay so
under every operation that does not read that slot. -/

namespace Sys2Proof.Machine

/-- Two states are the same but possibly for register slot `q`. -/
structure AgreeOff (q : Reg) (s s' : State) : Prop where
  mem : s'.mem = s.mem
  pc : s'.pc = s.pc
  halted : s'.halted = s.halted
  fault : s'.fault = s.fault
  out : s'.out = s.out
  reg : ∀ r : Reg, r ≠ q → s'.reg r = s.reg r

/-- Two execute phases end alike but possibly for slot `q`: both done, or both raising the same fault. -/
inductive PhasesAgreeOff (q : Reg) : Phase → Phase → Prop where
  | done {t t' : State} : AgreeOff q t t' → PhasesAgreeOff q (.done t) (.done t')
  | raise (info : FaultInfo) : PhasesAgreeOff q (.raise info) (.raise info)

/-- Two results are next states that agree off slot `q`. -/
def ResultsAgreeOff (q : Reg) (x x' : Result) : Prop :=
  ∃ t t', x = .next t ∧ x' = .next t' ∧ AgreeOff q t t'

/-- Writing a slot leaves a state that agrees with the one before off that slot. -/
theorem agreeOff_setReg (q : Reg) (s : State) (v : Byte) : AgreeOff q s (s.setReg q v) where
  mem := rfl
  pc := rfl
  halted := rfl
  fault := rfl
  out := rfl
  reg _ hr := s.reg_setReg_ne v hr

section
variable {q : Reg} {s s' : State}

theorem AgreeOff.setReg (h : AgreeOff q s s') (r : Reg) (v : Byte) : AgreeOff q (s.setReg r v) (s'.setReg r v) :=
  { h with reg := fun x hx => by simp only [State.reg_setReg, h.reg x hx] }

theorem AgreeOff.setPc (h : AgreeOff q s s') (n : Nat) : AgreeOff q (s.setPc n) (s'.setPc n) :=
  { h with pc := rfl }

theorem AgreeOff.advance (h : AgreeOff q s s') (n : Nat) : AgreeOff q (s.advance n) (s'.advance n) :=
  { h with pc := by simp [h.pc] }

theorem AgreeOff.emit (h : AgreeOff q s s') (e : Event) : AgreeOff q (s.emit e) (s'.emit e) :=
  { h with out := by simp [h.out] }

theorem AgreeOff.halt (h : AgreeOff q s s') : AgreeOff q s.halt s'.halt :=
  { h with halted := rfl }

theorem AgreeOff.raise (h : AgreeOff q s s') (info : FaultInfo) : AgreeOff q (s.raise info) (s'.raise info) :=
  { h with halted := rfl, fault := by simp [h.pc], out := by simp [h.pc, h.out] }

theorem AgreeOff.store (h : AgreeOff q s s') (a : Int) (v : Byte) : AgreeOff q (s.store a v) (s'.store a v) where
  mem := by simp [h.mem]
  pc := by simp [h.pc]
  halted := by simp [h.halted]
  fault := by simp [h.fault]
  out := by simp [h.out]
  reg r hr := by simp [h.reg r hr]

theorem AgreeOff.pushAddr_eq (h : AgreeOff q s s') (hq : .sp ≠ q) : s'.pushAddr = s.pushAddr := by
  simp only [State.pushAddr, h.reg _ hq]

theorem AgreeOff.top_eq (h : AgreeOff q s s') (hq : .sp ≠ q) : s'.top = s.top := by
  simp only [State.top, h.mem, h.reg _ hq]

theorem AgreeOff.popBase_eq (h : AgreeOff q s s') (hq : .sp ≠ q) (a : Reg) : popBase a s' = popBase a s := by
  simp only [popBase, h.top_eq hq, h.reg _ hq]

/-- The end of a step keeps agreement: a fault has its effect on the states the phases began in (R175). -/
theorem PhasesAgreeOff.settle {p p' : Phase} (hp : PhasesAgreeOff q p p') (h : AgreeOff q s s') :
    ResultsAgreeOff q (p.settle s) (p'.settle s') := by
  cases hp with
  | done ht => exact ⟨_, _, rfl, rfl, ht⟩
  | raise info => exact ⟨_, _, rfl, rfl, h.raise info⟩

theorem PhasesAgreeOff.thenAdvance {p p' : Phase} (hp : PhasesAgreeOff q p p') (n : Nat) :
    PhasesAgreeOff q (p.thenAdvance n) (p'.thenAdvance n) := by
  cases hp with
  | done ht => exact .done (ht.advance n)
  | raise info => exact .raise info

/-- The register check reads its operand byte and no register (R106). -/
theorem AgreeOff.withReg (h : AgreeOff q s s') {field : RegField} {b : Byte} {k k' : Reg → Result}
    (hk : ∀ r, slot b = some r → ResultsAgreeOff q (k r) (k' r)) :
    ResultsAgreeOff q (withReg field b s k) (withReg field b s' k') := by
  by_cases hb : b.toNat < 8
  · rw [withReg_slot (slot_of_lt hb), withReg_slot (slot_of_lt hb)]
    exact hk _ (slot_of_lt hb)
  · rw [withReg_illegal (by omega), withReg_illegal (by omega)]
    exact ⟨_, _, rfl, rfl, h.raise _⟩

/-- The ALU reads its two operands only (R140). -/
theorem AgreeOff.aluApply (h : AgreeOff q s s') (op : AluOp) {a b : Reg} (ha : a ≠ q) (hb : b ≠ q) :
    PhasesAgreeOff q (aluApply op a b s) (aluApply op a b s') := by
  unfold Machine.aluApply
  rw [h.reg a ha, h.reg b hb]
  split
  · exact .done (h.setReg a _)
  · exact .raise _

/-- PUSH reads SP and its register, after the decrement (R151). -/
theorem AgreeOff.pushPhase (h : AgreeOff q s s') {a : Reg} (hq : .sp ≠ q) (ha : a ≠ q) :
    PhasesAgreeOff q (pushPhase a s) (pushPhase a s') := by
  unfold Machine.pushPhase
  rw [h.pushAddr_eq hq]
  split
  · exact .raise _
  · have ht := h.setReg .sp (BitVec.ofInt 8 s.pushAddr)
    simp only [ht.reg a ha]
    exact .done (ht.store _ _)

/-- POP reads SP and the byte it addresses (R152). -/
theorem AgreeOff.popPhase (h : AgreeOff q s s') (a : Reg) (hq : .sp ≠ q) :
    PhasesAgreeOff q (popPhase a s) (popPhase a s') := by
  unfold Machine.popPhase
  rw [h.reg _ hq, h.popBase_eq hq, h.top_eq hq, h.pc]
  split
  · exact .done (h.emit _)
  · split
    · exact .raise _
    · exact .done ((h.setReg a _).setReg _ _)

/-- CALL reads SP and its register, after the decrement (R160). -/
theorem AgreeOff.callPhase (h : AgreeOff q s s') {a : Reg} (hq : .sp ≠ q) (ha : a ≠ q) :
    PhasesAgreeOff q (callPhase a s) (callPhase a s') := by
  unfold Machine.callPhase
  rw [h.pushAddr_eq hq, h.pc]
  split
  · exact .raise _
  · split
    · exact .raise _
    · have ht := h.setReg .sp (BitVec.ofInt 8 s.pushAddr)
      simp only [ht.reg a ha]
      exact .done ((ht.store _ _).setPc _)

/-- RET reads SP and the byte it addresses (R161). -/
theorem AgreeOff.retPhase (h : AgreeOff q s s') (hq : .sp ≠ q) : PhasesAgreeOff q (retPhase s) (retPhase s') := by
  unfold Machine.retPhase
  rw [h.reg _ hq, h.top_eq hq]
  split
  · exact .raise _
  · exact .done ((h.setReg _ _).setPc _)

/-- An instruction that does not read slot `q` keeps agreement off it (R23). -/
theorem AgreeOff.exec (h : AgreeOff q s s') {i : Instr} (hq : q.val ∉ readsSlots i) :
    ResultsAgreeOff q (exec i s) (exec i s') := by
  cases i <;> simp only [readsSlots, List.mem_cons, List.not_mem_nil, or_false, not_or] at hq
  case hlt => exact (PhasesAgreeOff.done (h.emit _).halt).thenAdvance _ |>.settle h
  case ldi => exact h.withReg fun a _ => (PhasesAgreeOff.done (h.setReg a _)).thenAdvance _ |>.settle h
  case prn =>
    refine h.withReg fun a ha => (PhasesAgreeOff.thenAdvance ?_ _).settle h
    rw [prnPhase, prnPhase, h.reg a (slot_ne ha hq).symm]
    exact .done (h.emit _)
  case add | mul =>
    obtain ⟨hqa, hqb⟩ := hq
    exact h.withReg fun a ha => h.withReg fun b hb =>
      (h.aluApply _ (slot_ne ha hqa).symm (slot_ne hb hqb).symm).thenAdvance _ |>.settle h
  case push =>
    obtain ⟨hq7, hqa⟩ := hq
    exact h.withReg fun a ha => (h.pushPhase (ne_sp hq7).symm (slot_ne ha hqa).symm).thenAdvance _ |>.settle h
  case pop => exact h.withReg fun a _ => (h.popPhase a (ne_sp hq).symm).thenAdvance _ |>.settle h
  case call =>
    obtain ⟨hq7, hqa⟩ := hq
    exact h.withReg fun a ha => (h.callPhase (ne_sp hq7).symm (slot_ne ha hqa).symm).settle h
  case ret => exact (h.retPhase (ne_sp hq).symm).settle h

end

/-- Settles O38: a state and its copy with one slot rewritten agree off that slot, and `exec` keeps that. -/
theorem unreadSlotsDoNotMatter : Obligations.UnreadSlotsDoNotMatter := by
  intro i s q v hq
  obtain ⟨t, t', ht, ht', h⟩ := (agreeOff_setReg q s v).exec hq
  exact ⟨t, t', ht, ht', h.mem, h.pc, h.halted, h.fault, h.out, h.reg⟩

end Sys2Proof.Machine
end

section
/-! PROOFS, family 20_memory. MemRead and MemWrite inside and outside 0..255 (R51, R52). -/

namespace Sys2Proof.Machine

theorem memWrite_in (m : Memory) {a : Int} (v : Byte) (h : 0 ≤ a ∧ a ≤ 255) : memWrite m a v = .ok (m.set a.toNat v) :=
  if_pos ((inRange_iff a).2 h)

theorem memWrite_out (m : Memory) {a : Int} (v : Byte) (h : ¬ (0 ≤ a ∧ a ≤ 255)) : memWrite m a v = .invalid a :=
  if_neg (mt (inRange_iff a).1 h)

/-- Setting a cell is read back, on a memory in canonical form. -/
theorem memRead_set_self {m : Memory} (hm : m.wf) {a : Int} (v : Byte) (ha : 0 ≤ a ∧ a ≤ 255) :
    memRead (m.set a.toNat v) a = .ok v := by
  rw [memRead_in ha, Memory.cell_set_self hm.1]

/-- Setting a cell leaves every other address as it was, those outside memory included. -/
theorem memRead_set_ne (m : Memory) {a b : Int} (v : Byte) (ha : 0 ≤ a ∧ a ≤ 255) (hba : b ≠ a) :
    memRead (m.set a.toNat v) b = memRead m b := by
  by_cases hb : 0 ≤ b ∧ b ≤ 255
  · have hcell : b.toNat ≠ a.toNat := by omega
    rw [memRead_in hb, memRead_in hb, Memory.cell_set_ne m v hcell]
  · rw [memRead_out hb, memRead_out hb]

/-- A store outside memory changes nothing (R52). -/
theorem State.store_out_of_range (s : State) {a : Int} (v : Byte) (h : ¬ (0 ≤ a ∧ a ≤ 255)) : s.store a v = s := by
  rw [State.store, memWrite_out s.mem v h]

/-- Settles O6: in range the write sets the cell that the read looks up; out of range both give up before any access. -/
theorem memoryReadsWhatWasWritten : Obligations.MemoryReadsWhatWasWritten := by
  intro m a v hm
  constructor
  · intro ha
    exact ⟨memRead_in ha, m.set a.toNat v, memWrite_in m v ha, memRead_set_self hm v ha,
      fun b hb => memRead_set_ne m v ha hb⟩
  · intro ha
    exact ⟨memRead_out ha, memWrite_out m v ha, fun s => s.store_out_of_range v ha⟩

end Sys2Proof.Machine
end

section
/-! PROOFS, family 20_memory. The memory frame of an instruction that completes (R56). -/

namespace Sys2Proof.Machine

/-- Only PUSH and CALL store, and both at the push address. -/
theorem storesAt_eq_some {i : Instr} {s : State} {a : Int} (h : storesAt i s = some a) :
    (i.op = .push ∨ i.op = .call) ∧ a = s.pushAddr := by
  cases i
  case push => exact ⟨.inl rfl, (Option.some.inj h).symm⟩
  case call => exact ⟨.inr rfl, (Option.some.inj h).symm⟩
  all_goals cases h

/-- A completed instruction that stores nothing leaves memory alone. -/
theorem Completes.mem_eq {i : Instr} {s t : State} (h : Completes i s t) (hi : storesAt i s = none) : t.mem = s.mem := by
  cases i <;> simp only [Completes] at h
  case hlt => subst h; rfl
  case ldi | prn => obtain ⟨a, -, rfl⟩ := h; rfl
  case add | mul => obtain ⟨a, b, -, -, rfl⟩ := h; rfl
  case pop => obtain ⟨a, -, ⟨-, rfl⟩ | ⟨-, -, rfl⟩⟩ := h <;> rfl
  case ret => obtain ⟨-, rfl⟩ := h; rfl
  case push | call => cases hi

/-- A completed instruction changes no address but the one below SP. -/
theorem Completes.memRead_ne_pushAddr {i : Instr} {s t : State} {b : Int} (h : Completes i s t) (hb : b ≠ s.pushAddr) :
    memRead t.mem b = memRead s.mem b := by
  cases i
  case push => obtain ⟨a, -, -, rfl⟩ := h; exact memRead_store_ne _ _ hb
  case call => obtain ⟨a, -, -, -, rfl⟩ := h; exact memRead_store_ne _ _ hb
  all_goals rw [h.mem_eq rfl]

/-- Settles O39: a machine fault leaves memory alone, and a completed instruction changes at most the push address. -/
theorem onlyPushAndCallStore : Obligations.OnlyPushAndCallStore := by
  intro i s t h
  refine ⟨fun hi => ?_, fun a ha b hb => ?_, fun a ha => (storesAt_eq_some ha).1⟩
  · rcases exec_next h with ⟨info, rfl, -⟩ | hc
    · rfl
    · exact hc.mem_eq hi
  · obtain ⟨-, rfl⟩ := storesAt_eq_some ha
    rcases exec_next h with ⟨info, rfl, -⟩ | hc
    · rfl
    · exact hc.memRead_ne_pushAddr hb

end Sys2Proof.Machine
end

section
/-! PROOFS, family 20_memory. The byte a PUSH stores, and the fetch that reads it (R62). -/

namespace Sys2Proof.Machine

/-- An instruction that leaves no fault record has completed. -/
theorem completes_of_fault_eq_none {i : Instr} {s t : State} (h : exec i s = .next t) (ht : t.fault = none) :
    Completes i s t := by
  rcases exec_next h with ⟨info, rfl, -⟩ | hc
  · cases ht
  · exact hc

/-- A push address that is not negative is an address of memory (R150). -/
theorem State.pushAddr_in {s : State} (h : 0 ≤ s.pushAddr) : 0 ≤ s.pushAddr ∧ s.pushAddr ≤ 255 := by
  have := s.pushAddr_range
  omega

/-- A completed PUSH leaves its register's value, as it stands after the decrement, at the push address (R151). -/
theorem Completes.memRead_push {rA : Byte} {s t : State} (hm : s.mem.wf) (h : Completes (.push rA) s t) :
    ∃ r, slot rA = some r ∧ memRead t.mem s.pushAddr = .ok (t.reg r) := by
  obtain ⟨r, hr, hpos, rfl⟩ := h
  refine ⟨r, hr, ?_⟩
  rw [State.reg_advance, State.reg_store]
  exact memRead_store_self (s := s.setReg .sp _) hm (State.pushAddr_in hpos) _

/-- The fetch begins with the byte at pc (R101). -/
theorem State.fetch_of_memRead_pc {s : State} {op : Byte} (h : memRead s.mem s.pc = .ok op) :
    ∃ rest, s.fetch = op :: rest := by
  obtain ⟨hpc, rfl⟩ := memRead_ok h
  exact ⟨_, State.fetch_in hpc⟩

/-- Settles O45: the new pc reads the pushed byte, and the fetch begins with what pc reads. -/
theorem nextFetchSeesTheStoredByte : Obligations.NextFetchSeesTheStoredByte := by
  intro rA s t hm _ h ht hpc
  obtain ⟨r, hr, hread⟩ := (completes_of_fault_eq_none h ht).memRead_push hm
  rw [hpc] at hread
  obtain ⟨rest, hfetch⟩ := State.fetch_of_memRead_pc hread
  exact ⟨r, rest, (slot_eq_some.1 hr).symm, hfetch⟩

end Sys2Proof.Machine
end

section
/-! PROOFS, family 30_encoding. The round trip of the encoding, the unrecognised opcode bytes, and the length from bits 7:6
of the opcode byte (R70-R79). -/

namespace Sys2Proof

/-- Shifting an opcode byte right by six divides it by 64 (R71). -/
theorem opCount_eq_div (op : Byte) : opCount op = op.toNat / 64 := by
  rw [opCount, BitVec.toNat_ushiftRight, Nat.shiftRight_eq_div_pow]

/-- No handler consumes more than the two candidate operands (R75). -/
theorem Op.operandCount_le (x : Op) : x.operandCount ≤ 2 := by cases x <;> decide

/-- Bits 7:6 of a handler's byte are at most 2 (R79). -/
theorem OpcodeMap.Valid.topBits_le {m : OpcodeMap} (hm : m.Valid) (x : Op) : (m x).toNat / 64 ≤ 2 := by
  rw [← opCount_eq_div, hm.count]
  exact x.operandCount_le

/-- The byte values some handler has, as numbers. -/
def OpcodeMap.recognizedBytes (m : OpcodeMap) : Finset (Fin 256) := Op.all.toFinset.image fun x => (m x).toFin

/-- A byte value is recognised exactly when some handler has it. -/
theorem OpcodeMap.mem_recognizedBytes {m : OpcodeMap} {n : Fin 256} :
    n ∈ m.recognizedBytes ↔ m.lookup (BitVec.ofFin n) ≠ none := by
  simp [OpcodeMap.recognizedBytes, OpcodeMap.lookup_none, Op.mem_all, ← BitVec.toFin_inj]

/-- Distinct bytes for the nine handlers are nine bytes. -/
theorem OpcodeMap.Valid.card_recognizedBytes {m : OpcodeMap} (hm : m.Valid) : m.recognizedBytes.card = 9 := by
  have hinj : Function.Injective fun x => (m x).toFin := fun x y hxy => hm.distinct x y (BitVec.toFin_inj.1 hxy)
  rw [OpcodeMap.recognizedBytes, Finset.card_image_of_injective _ hinj]
  decide

/-- The unrecognised byte values are all the others. -/
theorem OpcodeMap.filter_lookup_none (m : OpcodeMap) :
    (Finset.univ.filter fun n : Fin 256 => m.lookup (BitVec.ofFin n) = none) = m.recognizedBytesᶜ := by
  ext n
  simp [OpcodeMap.mem_recognizedBytes]

/-- The first byte of what decodes to an instruction is the byte of its handler (R74, R76). -/
theorem op_byte_of_decodeWith {m : OpcodeMap} {op : Byte} {rest : List Byte} {i : Instr}
    (h : decodeWith m (op :: rest) = .instr i) : op = m i.op := by
  obtain ⟨more, hbytes⟩ := eq_encodeWith_append_of_decodeWith h
  exact (List.cons.inj hbytes).1

/-- Settles O1: the lookup finds the handler of its own byte, and the operands are taken off the front. -/
theorem decodeOfEncodeIsTheInstruction : Obligations.DecodeOfEncodeIsTheInstruction :=
  fun _ hm i rest => decodeWith_encodeWith hm i rest

/-- Settles O2: the lookup is exact, and each operand is a whole byte of the input. -/
theorem bytesDecodedBeginWithTheEncoding : Obligations.BytesDecodedBeginWithTheEncoding :=
  fun _ _ _ h => eq_encodeWith_append_of_decodeWith h

/-- Settles O4: the unrecognised bytes are the complement of the nine recognised ones, whose bits 7:6 are at most 2. -/
theorem unrecognizedOpcodesAre247 : Obligations.UnrecognizedOpcodesAre247 := by
  intro m hm
  refine ⟨?_, fun op htop => OpcodeMap.lookup_none.2 ?_, fun op rest h => ?_⟩
  · rw [m.filter_lookup_none, Finset.card_compl, hm.card_recognizedBytes, Fintype.card_fin]
  · rintro x rfl
    have := hm.topBits_le x
    omega
  · rw [decodeWith, h]

/-- Settles O5: the opcode byte of a decoded instruction is its handler's, whose bits 7:6 are the operand count. -/
theorem lengthComesFromTopBits : Obligations.LengthComesFromTopBits := by
  refine ⟨fun op => congrArg (· + 1) (opCount_eq_div op), fun m hm op rest i h => ?_⟩
  rw [op_byte_of_decodeWith h]
  exact ⟨encodeWith_length hm i, hm.topBits_le i.op⟩

/-- Under the default map, bytes that begin with an encoding decode to its instruction (R73). -/
theorem decode_of_eq_encode {bytes : List Byte} {i : Instr} (h : bytes = encode i) : decode bytes = .instr i := by
  rw [h, ← List.append_nil (encode i)]
  exact decodeWith_encodeWith opcodeMap_valid i []

/-- Settles O3: each word is the encoding of its instruction under the default map. -/
theorem tableWordsDecode : Obligations.TableWordsDecode :=
  ⟨decode_of_eq_encode rfl, decode_of_eq_encode rfl, decode_of_eq_encode rfl, decode_of_eq_encode rfl,
    decode_of_eq_encode rfl, decode_of_eq_encode rfl, decode_of_eq_encode rfl, decode_of_eq_encode rfl,
    decode_of_eq_encode rfl⟩

end Sys2Proof
end

section
/-! PROOFS, family 40_engine. Every step keeps the invariants of R113, and so they hold of every reachable state. -/

namespace Sys2Proof.Machine

/-- The fetch reads up to three bytes, as far as memory reaches (R101, R102). -/
theorem State.fetch_length (s : State) : s.fetch.length = min 3 (256 - s.pc) := by
  by_cases hp : s.pc ≤ 255
  · rw [State.fetch_in hp]
    split_ifs <;> simp only [List.length_cons, List.length_nil] <;> omega
  · rw [State.fetch_past (by omega), List.length_nil]
    omega

/-- The bytes of a decoded instruction end at the top of memory at the latest. -/
theorem pc_add_length_le_of_decodeWith {m : OpcodeMap} {s : State} {i : Instr} (h : decodeWith m s.fetch = .instr i) :
    s.pc + i.op.length ≤ 256 := by
  obtain ⟨more, hfetch⟩ := eq_encodeWith_append_of_decodeWith h
  have hlen := congrArg List.length hfetch
  rw [State.fetch_length, encodeWith, List.length_append, List.length_cons, i.operandBytes_length] at hlen
  unfold Op.length
  omega

/-- A completed instruction leaves pc at most 256: a transfer goes to a byte, and any other goes past its own bytes. -/
theorem Completes.pc_le {i : Instr} {s t : State} (h : Completes i s t) (hp : s.pc + i.op.length ≤ 256) :
    t.pc ≤ 256 := by
  by_cases hcall : i.op = .call
  · cases i <;> cases hcall
    obtain ⟨a, -, -, -, rfl⟩ := h
    exact Nat.le_of_lt (BitVec.isLt _)
  by_cases hret : i.op = .ret
  · cases i <;> cases hret
    obtain ⟨-, rfl⟩ := h
    exact Nat.le_of_lt (BitVec.isLt _)
  exact (h.pc_eq hcall hret).trans_le hp

/-- A completed instruction keeps memory in canonical form (R21). -/
theorem Completes.mem_wf {i : Instr} {s t : State} (h : Completes i s t) (hm : s.mem.wf) : t.mem.wf := by
  cases i
  case push => obtain ⟨a, -, -, rfl⟩ := h; exact State.store_wf (s := s.setReg .sp _) hm _ _
  case call => obtain ⟨a, -, -, -, rfl⟩ := h; exact State.store_wf (s := s.setReg .sp _) hm _ _
  all_goals rw [h.mem_eq rfl]; exact hm

/-- What is emitted after events that do not end a run, and does not end one itself, keeps the output so. -/
theorem ends_append {out es : List Event} (hout : ∀ e ∈ out, e.ends = false) (hes : ∀ e ∈ es, e.ends = false) :
    ∀ e ∈ out ++ es, e.ends = false :=
  fun e he => (List.mem_append.1 he).elim (hout e) (hes e)

/-- A completed instruction other than HLT emits nothing that ends a run (R29, R110). -/
theorem Completes.out_ends {i : Instr} {s t : State} (h : Completes i s t) (hi : i ≠ .hlt)
    (hout : ∀ e ∈ s.out, e.ends = false) : ∀ e ∈ t.out, e.ends = false := by
  cases i <;> simp only [Completes] at h
  case hlt => exact absurd rfl hi
  case prn => obtain ⟨a, -, rfl⟩ := h; exact ends_append hout (by simp [Event.ends])
  case pop =>
    obtain ⟨a, -, ⟨-, rfl⟩ | ⟨-, -, rfl⟩⟩ := h
    · exact ends_append hout (by simp [Event.ends])
    · exact hout
  case ldi => obtain ⟨a, -, rfl⟩ := h; exact hout
  case add | mul => obtain ⟨a, b, -, -, rfl⟩ := h; exact hout
  case push => obtain ⟨a, -, -, rfl⟩ := h; simpa using hout
  case call => obtain ⟨a, -, -, -, rfl⟩ := h; simpa using hout
  case ret => obtain ⟨-, rfl⟩ := h; exact hout

/-- A running machine has recorded no fault (R28, R113). -/
theorem Inv.fault_eq_none {s : State} (h : Inv s) (hs : s.halted = false) : s.fault = none := by
  by_contra hf
  rw [h.faultHalts hf] at hs
  cases hs

/-- What the invariants ask of a running machine. -/
theorem inv_of_running {s : State} (hm : s.mem.wf) (hp : s.pc ≤ 256) (hs : s.halted = false) (hf : s.fault = none)
    (hout : ∀ e ∈ s.out, e.ends = false) : Inv s where
  memWf := hm
  faultHalts h := absurd hf h
  pcBound := hp
  runningOut _ := hout
  haltedOut h := by rw [hs] at h; cases h
  faultRecord f h := by rw [hf] at h; cases h

/-- A machine fault of a running machine keeps the invariants (R175). -/
theorem Inv.raise {s : State} {info : FaultInfo} (h : Inv s) (hs : s.halted = false)
    (hinfo : info.kind ≠ .unsupportedALUOperation) : Inv (s.raise info) where
  memWf := h.memWf
  faultHalts _ := rfl
  pcBound := h.pcBound
  runningOut hr := by cases hr
  haltedOut _ := ⟨s.out, h.runningOut hs, rfl⟩
  faultRecord f hf := by cases hf; exact ⟨rfl, hinfo⟩

/-- The operand reports of a running machine keep the invariants (R104). -/
theorem Inv.withUnreadReports {s : State} (h : Inv s) (hs : s.halted = false) (n : Nat) :
    Inv (withEvents s (unreadReports s.pc n)) :=
  inv_of_running h.memWf h.pcBound hs (h.fault_eq_none hs)
    (ends_append (h.runningOut hs) fun _ => unreadReports_ends)

/-- An instruction that completes on a running machine, its bytes in memory, keeps the invariants: HLT emits the one
notice that ends a run, and any other leaves the machine running. -/
theorem Inv.completes {i : Instr} {s t : State} (h : Inv s) (hs : s.halted = false) (hp : s.pc + i.op.length ≤ 256)
    (hc : Completes i s t) : Inv t := by
  have hf := h.fault_eq_none hs
  by_cases hi : i = .hlt
  · subst hi
    cases hc
    exact {
      memWf := h.memWf
      faultHalts := fun _ => rfl
      pcBound := hp
      runningOut := fun hr => by cases hr
      haltedOut := fun _ => ⟨s.out, h.runningOut hs, by simp [hf, lastNotice]⟩
      faultRecord := fun f hr => by cases hf.symm.trans hr }
  · exact inv_of_running (hc.mem_wf h.memWf) (hc.pc_le hp) ((hc.halted_eq hi).trans hs) (hc.fault_eq.trans hf)
      (hc.out_ends hi (h.runningOut hs))

/-- Settles O20: a step is a machine fault, or an instruction after its operand reports, and each keeps the invariants. -/
theorem everyStepKeepsTheInvariants : Obligations.EveryStepKeepsTheInvariants := by
  intro m s t h ht
  obtain ⟨hs, ⟨-, rfl⟩ | ⟨k, -, rfl⟩ | ⟨op, -, rfl⟩ | ⟨i, hd, he⟩⟩ := stepWith_next ht
  · exact h.raise hs (by simp [FaultInfo.kind])
  · exact h.raise hs (by simp [FaultInfo.kind])
  · exact (h.withUnreadReports hs 0).raise hs (by simp [FaultInfo.kind])
  · have hr := h.withUnreadReports hs i.op.operandCount
    rcases exec_next he with ⟨info, rfl, hinfo⟩ | hc
    · exact hr.raise hs hinfo.ne_unsupported
    · exact hr.completes hs (pc_add_length_le_of_decodeWith hd) hc

/-- The machine at construction meets the invariants, whatever R0-R6 hold (R200). -/
theorem State.construct_inv (init : Vector Byte 7) : Inv (State.construct init) :=
  inv_of_running Memory.wf_nil (Nat.zero_le 256) rfl rfl fun _ he => absurd he List.not_mem_nil

/-- Placing bytes keeps the invariants, since it changes memory only (R202). -/
theorem Inv.place {s : State} (h : Inv s) (a : Nat) (bytes : List Byte) : Inv (s.place a bytes) := by
  have hm := State.place_wf h.memWf a bytes
  rw [State.place_frame]
  exact { h with memWf := hm }

/-- A load that is not refused places the image from address 0 (R202). -/
theorem State.load_eq_some {s t : State} {image : List Byte} (h : s.load image = some t) : t = s.place 0 image := by
  unfold State.load at h
  split at h
  · exact (Option.some.inj h).symm
  · cases h

/-- Settles O22: construction and the load meet the invariants, and every step keeps them. -/
theorem reachableStatesMeetTheInvariants : Obligations.ReachableStatesMeetTheInvariants := by
  intro m s h
  induction h with
  | boot init image s hload =>
    rw [State.load_eq_some hload]
    exact (State.construct_inv init).place 0 image
  | step s t _ ht ih => exact everyStepKeepsTheInvariants m s t ih ht

end Sys2Proof.Machine
end

section
/-! PROOFS, family 40_engine. The fetch read through the decoder, and the step it selects (R100-R105, R107). -/

namespace Sys2Proof

/-- The instruction of a handler with these candidate operand bytes; a byte the handler does not consume is not used. -/
def Op.withOperands (x : Op) (a b : Byte) : Instr :=
  match x with
  | .hlt => .hlt
  | .ldi => .ldi a b
  | .prn => .prn a
  | .add => .add a b
  | .mul => .mul a b
  | .push => .push a
  | .pop => .pop a
  | .call => .call a
  | .ret => .ret

@[simp] theorem Op.withOperands_op (x : Op) (a b : Byte) : (x.withOperands a b).op = x := by cases x <;> rfl

/-- With every consumed operand byte there, the decoder answers the handler's instruction with those bytes (R74, R75). -/
theorem decodeOperands_of_le {x : Op} {rest : List Byte} (h : x.operandCount ≤ rest.length) :
    decodeOperands x rest = .instr (x.withOperands (rest.getD 0 0) (rest.getD 1 0)) := by
  cases x
  case hlt | ret => rfl
  case prn | push | pop | call =>
    obtain ⟨a, more, rfl⟩ := List.exists_cons_of_length_pos h
    rfl
  case ldi | add | mul =>
    obtain ⟨a, more, rfl⟩ := List.exists_cons_of_length_pos (Nat.lt_of_succ_le h).pos
    obtain ⟨b, more, rfl⟩ := List.exists_cons_of_length_pos (Nat.le_of_succ_le_succ h)
    rfl

/-- With fewer bytes than the handler consumes, the decoder names the first one that is not there (R104). -/
theorem decodeOperands_missing {x : Op} {rest : List Byte} {k : OperandPos} (hk : k.offset ≤ x.operandCount)
    (hrest : rest.length + 1 = k.offset) : decodeOperands x rest = .missingOperand k := by
  cases k
  case operand1 =>
    obtain rfl := List.length_eq_zero_iff.1 (Nat.succ.inj hrest)
    cases x
    case hlt | ret => exact absurd hk (by decide)
    all_goals rfl
  case operand2 =>
    obtain ⟨a, rfl⟩ := List.length_eq_one_iff.1 (Nat.succ.inj hrest)
    cases x
    case ldi | add | mul => rfl
    all_goals exact absurd hk (by decide)

end Sys2Proof

namespace Sys2Proof.Machine

/-- Memory that holds bytes holds every beginning of them. -/
theorem holdsBytes_of_append {s : State} {a : Nat} {bytes more : List Byte} (h : holdsBytes s a (bytes ++ more)) :
    holdsBytes s a bytes := by
  intro j hj
  have := h j (by rw [List.length_append]; omega)
  rwa [List.getElem_append_left hj] at this

/-- What the fetch reads is what memory holds from pc on (R101, R102). -/
theorem State.holdsBytes_fetch (s : State) : holdsBytes s s.pc s.fetch := by
  by_cases hp : s.pc ≤ 255
  · rw [State.fetch_in hp]
    refine holdsBytes_cons.2 ⟨by rw [memRead_natCast, if_pos hp], ?_⟩
    split
    · next hp1 =>
      refine holdsBytes_cons.2 ⟨by rw [memRead_natCast, if_pos hp1], ?_⟩
      split
      · next hp2 => exact holdsBytes_cons.2 ⟨by rw [memRead_natCast, if_pos hp2], holdsBytes_nil s _⟩
      · exact holdsBytes_nil s _
    · exact holdsBytes_nil s _
  · rw [State.fetch_past (by omega)]
    exact holdsBytes_nil s _

/-- The bytes of a decoded instruction lie in memory from pc on. -/
theorem holdsBytes_of_decodeWith {m : OpcodeMap} {s : State} {i : Instr} (h : decodeWith m s.fetch = .instr i) :
    holdsBytes s s.pc (encodeWith m i) := by
  obtain ⟨more, hfetch⟩ := eq_encodeWith_append_of_decodeWith h
  exact holdsBytes_of_append (hfetch ▸ s.holdsBytes_fetch)

/-- Operand `k` is consumed by the handler and lies past memory, with every operand before it in memory (R104). -/
structure FirstMissing (s : State) (x : Op) (k : OperandPos) : Prop where
  consumed : k.offset ≤ x.operandCount
  past : 255 < s.pc + k.offset
  first : ∀ j : OperandPos, j.offset < k.offset → s.pc + j.offset ≤ 255

section
variable {m : OpcodeMap} {s : State} {op : Byte} {x : Op}

/-- The fetch at a readable opcode byte: that byte, and as many candidate operands as memory still holds. -/
theorem State.fetch_opcode (hop : memRead s.mem s.pc = .ok op) :
    ∃ rest, s.fetch = op :: rest ∧ rest.length + 1 = min 3 (256 - s.pc) := by
  obtain ⟨rest, hfetch⟩ := State.fetch_of_memRead_pc hop
  exact ⟨rest, hfetch, by rw [← State.fetch_length, hfetch, List.length_cons]⟩

/-- A recognised opcode selects its handler's operands. -/
theorem decodeWith_cons_of_lookup (rest : List Byte) (hx : m.lookup op = some x) :
    decodeWith m (op :: rest) = decodeOperands x rest := by
  rw [decodeWith, hx]

/-- A running machine whose fetched bytes decode to an instruction executes it after the reports of its unread operands
(R104, R107). -/
theorem stepWith_of_decodeWith {i : Instr} (hs : s.halted = false) (h : decodeWith m s.fetch = .instr i) :
    stepWith m s = exec i (withEvents s (unreadReports s.pc i.op.operandCount)) := by
  rw [stepWith_running hs, runningStep, h]
  exact congrArg (exec i) (s.reportOperands_eq (some i.op))

/-- The opcode fetch past memory faults (R101). -/
theorem stepWith_opcodeFetch (hs : s.halted = false) (hp : 255 < s.pc) :
    stepWith m s = .next (s.raise (.invalidAddress s.pc .opcodeFetch)) := by
  rw [stepWith_running hs, runningStep, State.fetch_past hp, decodeWith]

/-- An opcode that no handler has faults after the operand reports (R105). -/
theorem stepWith_unrecognized (hs : s.halted = false) (hop : memRead s.mem s.pc = .ok op) (hx : m.lookup op = none) :
    stepWith m s = .next ((withEvents s (unreadReports s.pc 0)).raise (.unrecognizedInstruction op)) := by
  obtain ⟨rest, hfetch⟩ := State.fetch_of_memRead_pc hop
  rw [stepWith_running hs, runningStep, hfetch, decodeWith, hx]
  exact congrArg (fun t => Host.Outcome.next (State.raise t _)) (s.reportOperands_eq none)

/-- The first consumed operand past memory faults (R104). -/
theorem stepWith_missingOperand {k : OperandPos} (hs : s.halted = false) (hop : memRead s.mem s.pc = .ok op)
    (hx : m.lookup op = some x) (hk : FirstMissing s x k) :
    stepWith m s = .next (s.raise (.invalidAddress (s.pc + k.offset : Nat) (.operand k))) := by
  obtain ⟨rest, hfetch, hlen⟩ := State.fetch_opcode hop
  obtain ⟨hp, -⟩ := memRead_ok hop
  have hpast := hk.past
  have hrest : rest.length + 1 = k.offset := by
    cases k
    case operand1 => simp only [OperandPos.offset] at hpast ⊢; omega
    case operand2 =>
      have := hk.first .operand1 (by decide)
      simp only [OperandPos.offset] at hpast this ⊢
      omega
  rw [stepWith_running hs, runningStep, hfetch, decodeWith_cons_of_lookup rest hx, decodeOperands_missing hk.consumed hrest]

/-- The byte of a candidate operand's access is the one the fetch read, 0 standing for one past memory. -/
theorem State.operand_byte {rest : List Byte} (hfetch : s.fetch = op :: rest) (k : OperandPos) :
    (memRead s.mem (s.pc + k.offset : Nat)).byte = rest.getD (k.offset - 1) 0 := by
  obtain ⟨hp, -⟩ := memRead_ok (memRead_pc_of_fetch hfetch)
  rw [State.fetch_in hp, List.cons.injEq] at hfetch
  obtain ⟨-, rfl⟩ := hfetch
  cases k
  case operand1 =>
    simp only [OperandPos.offset, memRead_natCast]
    split_ifs <;> rfl
  case operand2 =>
    simp only [OperandPos.offset, memRead_natCast]
    by_cases h2 : s.pc + 2 ≤ 255
    · rw [if_pos h2, if_pos (show s.pc + 1 ≤ 255 by omega), if_pos h2]; rfl
    · rw [if_neg h2, if_neg h2]
      split_ifs <;> rfl

/-- With every consumed operand in memory, the decoder answers the handler's instruction with the bytes read (R104). -/
theorem decodeWith_of_operands_in (hop : memRead s.mem s.pc = .ok op) (hx : m.lookup op = some x)
    (hin : s.pc + x.operandCount ≤ 255) :
    decodeWith m s.fetch = .instr (x.withOperands (memRead s.mem (s.pc + OperandPos.operand1.offset : Nat)).byte
      (memRead s.mem (s.pc + OperandPos.operand2.offset : Nat)).byte) := by
  obtain ⟨rest, hfetch, hlen⟩ := State.fetch_opcode hop
  have hle : x.operandCount ≤ rest.length := by
    have := x.operandCount_le
    omega
  rw [State.operand_byte hfetch, State.operand_byte hfetch, hfetch, decodeWith_cons_of_lookup rest hx,
    decodeOperands_of_le hle]
  rfl

end

/-- With three bytes left from pc on, there is no operand to report (R104). -/
theorem unreadReports_eq_nil {p : Nat} (hp : p ≤ 253) (n : Nat) : unreadReports p n = [] := by
  rw [unreadReports, if_neg (by omega), if_neg (by omega), List.append_nil]

theorem withEvents_nil (s : State) : withEvents s [] = s := by
  rw [withEvents, List.append_nil]

/-- Settles O8: the decoded instruction is the one the step executes, under the default map. -/
theorem stepRunsTheDecodedInstruction : Obligations.StepRunsTheDecodedInstruction :=
  fun _ _ hs h => stepWith_of_decodeWith hs h

/-- Settles O11: past memory the fetch reads no opcode; below, it begins with the byte at pc. -/
theorem opcodeFetchPastMemoryFaults : Obligations.OpcodeFetchPastMemoryFaults := by
  refine fun m s hs => ⟨fun hp => stepWith_opcodeFetch hs hp, fun hp => ?_⟩
  have hfetch := State.fetch_in (Nat.le_of_lt_succ hp)
  exact ⟨_, _, memRead_pc_of_fetch hfetch, hfetch⟩

/-- Settles O9: the fetch reads the encoding, which decodes to its instruction; at 253 and below nothing is reported. -/
theorem instructionInMemoryIsExecuted : Obligations.InstructionInMemoryIsExecuted := by
  intro m hm s i hs h
  rw [i.operandBytes_length]
  exact ⟨stepWith_of_holdsBytes hm hs h, fun hp => by rw [unreadReports_eq_nil hp, withEvents_nil]⟩

/-- Settles O10: each answer of the decoder gives a next state, since every instruction does. -/
theorem runningMachineAlwaysSteps : Obligations.RunningMachineAlwaysSteps := by
  refine fun m s => ⟨fun hs => ?_, fun hs => if_pos hs⟩
  rw [stepWith_running hs, runningStep]
  split
  · exact ⟨_, rfl⟩
  · exact ⟨_, rfl⟩
  · exact ⟨_, rfl⟩
  · exact exec_answers _ _

/-- Settles O13: the fault of an unrecognised opcode, written out field by field. -/
theorem unrecognizedOpcodeFaults : Obligations.UnrecognizedOpcodeFaults :=
  fun _ _ _ hs hop hx => stepWith_unrecognized hs hop hx

/-- Settles O12: the decoder answers a missing operand, an instruction read from memory, or an unrecognised opcode. -/
theorem operandAddressVerdicts : Obligations.OperandAddressVerdicts := by
  intro m _ s op hs hop
  refine ⟨fun x k hx hk hpast hfirst => stepWith_missingOperand hs hop hx ⟨hk, hpast, hfirst⟩, fun x hx hin => ?_,
    fun hx => ?_⟩
  · have hd := decodeWith_of_operands_in hop hx hin
    refine ⟨_, Op.withOperands_op .., holdsBytes_of_decodeWith hd, ?_⟩
    rw [stepWith_of_decodeWith hs hd, Op.withOperands_op]
  · exact ⟨_, stepWith_unrecognized hs hop hx, _, rfl⟩

end Sys2Proof.Machine
end

section
/-! PROOFS, family 40_engine. The register check of phase 6 (R106), said once for every instruction, and the execute
phase and pc advance behind it (R107-R109). -/

namespace Sys2Proof

/-- Every instruction is its handler's with some operand bytes. -/
theorem Instr.exists_withOperands (i : Instr) : ∃ a b, i = i.op.withOperands a b := by
  cases i
  case hlt | ret => exact ⟨0, 0, rfl⟩
  case ldi a b | add a b | mul a b => exact ⟨a, b, rfl⟩
  case prn a | push a | pop a | call a => exact ⟨a, 0, rfl⟩

end Sys2Proof

namespace Sys2Proof.Machine

/-- The byte of a register field names no slot (R106). -/
def isIllegal (x : RegField × Byte) : Bool := decide (8 ≤ x.2.toNat)

/-- The machine fault of an illegal register field (R106, R171). -/
def illegalRegisterInfo (x : RegField × Byte) : FaultInfo := .illegalRegister x.2 x.1

theorem isIllegal_eq_true {x : RegField × Byte} : isIllegal x = true ↔ 8 ≤ x.2.toNat := decide_eq_true_iff

theorem isIllegal_eq_false {x : RegField × Byte} : isIllegal x = false ↔ x.2.toNat < 8 := by
  simp [isIllegal]

/-- A result behind a check of register fields: the fault of the first illegal one, else the result. -/
def afterCheck (fields : List (RegField × Byte)) (s : State) (r : Result) : Result :=
  match fields.find? isIllegal with
  | some x => .next (s.raise (illegalRegisterInfo x))
  | none => r

theorem afterCheck_of_find_eq_some {fields : List (RegField × Byte)} {x : RegField × Byte}
    (h : fields.find? isIllegal = some x) (s : State) (r : Result) :
    afterCheck fields s r = .next (s.raise (illegalRegisterInfo x)) := by
  rw [afterCheck, h]

/-- The model's check of one field, in front of what is itself behind a check of the fields after it. -/
theorem withReg_eq_afterCheck {f : RegField} {b : Byte} {s : State} {k : Reg → Result}
    {fields : List (RegField × Byte)} {r : Result} (hk : k (Fin.ofNat 8 b.toNat) = afterCheck fields s r) :
    withReg f b s k = afterCheck ((f, b) :: fields) s r := by
  cases h : isIllegal (f, b)
  · have hslot : slot b = some (Fin.ofNat 8 b.toNat) :=
      slot_eq_some.2 (Nat.mod_eq_of_lt (isIllegal_eq_false.1 h)).symm
    rw [withReg_slot hslot, hk, afterCheck, afterCheck, List.find?_cons_of_neg (by simp [h])]
  · rw [withReg_illegal (isIllegal_eq_true.1 h), afterCheck_of_find_eq_some (List.find?_cons_of_pos h)]
    rfl

/-- An instruction is the check of its register fields, then its execute phase, then the advance by the length of its
opcode byte unless it transfers control (R106-R109). -/
theorem exec_withOperands {x : Op} {op : Byte} (hlen : opLen op = x.length) (a b : Byte) (s : State) :
    exec (x.withOperands a b) s = afterCheck (registerOperands (x.withOperands a b)) s
      ((advanceUnlessTransfer x op
        (executePhase x (Fin.ofNat 8 a.toNat) (Fin.ofNat 8 b.toNat) b s)).settle s) := by
  rw [advanceUnlessTransfer, hlen]
  cases x
  case hlt | ret => rfl
  case ldi | prn | push | pop | call => exact withReg_eq_afterCheck rfl
  case add | mul => exact withReg_eq_afterCheck (withReg_eq_afterCheck rfl)

/-- An instruction with an illegal register operand raises the fault of the first one and does nothing else (R106). -/
theorem exec_of_find_eq_some {i : Instr} {x : RegField × Byte} (h : (registerOperands i).find? isIllegal = some x)
    (s : State) : exec i s = .next (s.raise (illegalRegisterInfo x)) := by
  obtain ⟨a, b, hi⟩ := i.exists_withOperands
  rw [hi] at h ⊢
  rw [exec_withOperands (opcodeMap_valid.opLen_byte i.op), afterCheck_of_find_eq_some h]

/-- Settles O14: the check finds the first illegal field, and with none there is no such fault to raise. -/
theorem illegalRegisterOperandFaults : Obligations.IllegalRegisterOperandFaults := by
  constructor
  · intro i s before after f b hfields hbefore hb
    refine exec_of_find_eq_some (x := (f, b)) (List.find?_eq_some_iff_append.2 ?_) s
    exact ⟨isIllegal_eq_true.2 hb, before, after, hfields, fun x hx => by simp [isIllegal_eq_false.2 (hbefore x hx)]⟩
  · intro i s t hlegal h hs f hf
    rcases exec_next h with ⟨info, rfl, ⟨field, b, -, hmem, hb⟩ | ⟨a, c, rfl⟩⟩ | hc
    · exact absurd (hlegal _ hmem) (Nat.not_lt.2 hb)
    · cases hf
      simp [FaultRecord.kind, FaultInfo.kind]
    · rw [hc.fault_eq, hs] at hf
      cases hf

end Sys2Proof.Machine
end

section
/-! PROOFS, family 40_engine. Where pc is after a completed step (R109). -/

namespace Sys2Proof.Machine

/-- A completed CALL leaves pc at its register, as the execute phase left it (R160). -/
theorem Completes.pc_call {rA : Byte} {s t : State} (h : Completes (.call rA) s t) :
    ∃ r : Reg, rA = BitVec.ofNat 8 r ∧ t.pc = (t.reg r).toNat := by
  obtain ⟨r, hr, -, -, rfl⟩ := h
  refine ⟨r, BitVec.eq_of_toNat_eq ?_, by simp⟩
  rw [slot_eq_some.1 hr, BitVec.toNat_ofNat, Nat.mod_eq_of_lt (by omega)]

/-- A completed RET leaves pc at the byte it popped (R161). -/
theorem Completes.pc_ret {s t : State} (h : Completes .ret s t) : t.pc = s.top.toNat := by
  obtain ⟨-, rfl⟩ := h
  rfl

/-- A step that leaves no fault record completed the instruction it decoded, after its operand reports. -/
theorem completes_of_stepWith {m : OpcodeMap} {s t : State} (h : stepWith m s = .next t) (ht : t.fault = none) :
    ∃ i, decodeWith m s.fetch = .instr i ∧ Completes i (withEvents s (unreadReports s.pc i.op.operandCount)) t := by
  obtain ⟨-, ⟨-, rfl⟩ | ⟨k, -, rfl⟩ | ⟨op, -, rfl⟩ | ⟨i, hd, he⟩⟩ := stepWith_next h
  · cases ht
  · cases ht
  · cases ht
  · exact ⟨i, hd, completes_of_fault_eq_none he ht⟩

/-- Under a map with distinct bytes, the decoded instruction is of the handler that the byte at pc is recognised as. -/
theorem op_of_decodeWith {m : OpcodeMap} (hm : m.Valid) {s : State} {op : Byte} {x : Op} {i : Instr}
    (hop : memRead s.mem s.pc = .ok op) (hx : m.lookup op = some x) (hd : decodeWith m s.fetch = .instr i) :
    i.op = x := by
  obtain ⟨hread, -⟩ := holdsBytes_cons.1 (holdsBytes_of_decodeWith hd)
  obtain rfl := Access.ok.inj (hop.symm.trans hread)
  exact Option.some.inj ((hm.lookup_byte i.op).symm.trans hx)

/-- Settles O18: the fetched byte's handler is the completed instruction's, and each completes with its own pc. -/
theorem pcAdvancesByOpcodeLength : Obligations.PcAdvancesByOpcodeLength := by
  intro m hm s t op x _ hop hx h ht
  obtain ⟨i, hd, hc⟩ := completes_of_stepWith h ht
  obtain rfl := op_of_decodeWith hm hop hx hd
  refine ⟨fun hcall hret => ?_, fun hcall => ?_, fun hret => ?_⟩
  · rw [hc.pc_eq hcall hret, ← hm.opLen_byte, OpcodeMap.lookup_some hx, opLen, opCount_eq_div]
    rfl
  · cases i <;> cases hcall
    obtain ⟨-, hoperand⟩ := holdsBytes_cons.1 (holdsBytes_of_decodeWith hd)
    obtain ⟨hread, -⟩ := holdsBytes_cons.1 hoperand
    obtain ⟨r, rfl, hpc⟩ := hc.pc_call
    exact ⟨r, hread, hpc⟩
  · cases i <;> cases hret
    rw [hc.pc_ret]
    refine ⟨?_, BitVec.isLt _⟩
    rw [BitVec.ofNat_toNat, BitVec.setWidth_eq]
    exact s.top_eq

end Sys2Proof.Machine
end

section
/-! PROOFS, family 40_engine. The pseudocode of R111 against the step, phase by phase. -/

namespace Sys2Proof.Machine

section
variable {m : OpcodeMap} {s t : State} {op : Byte} {x : Op}

/-- The loop of phase 4 goes on, with the reports so far, as long as no consumed operand is past memory (R104). -/
theorem operandVerdicts_go {ins : Option Op} {ks : List OperandPos}
    (h : ∀ k ∈ ks, consumed ins k = true → s.pc + k.offset ≤ 255) :
    operandVerdicts ins s ks = .go (ks.foldl (State.reportOperand ins) s) := by
  induction ks generalizing s with
  | nil => rfl
  | cons k ks ih =>
    have hrest := fun j hj => h j (List.mem_cons_of_mem _ hj)
    by_cases hin : s.pc + k.offset ≤ 255
    · have hreport : s.reportOperand ins k = s := by
        rw [State.reportOperand, memRead_natCast, if_pos hin]
      rw [List.foldl_cons, hreport, operandVerdicts, memRead_natCast, if_pos hin]
      exact ih hrest
    · have hunread : ¬ consumed ins k = true := fun hk => hin (h k List.mem_cons_self hk)
      have hreport : s.reportOperand ins k = s.report (.invalidAddress (s.pc + k.offset) s.pc k) := by
        rw [State.reportOperand, memRead_natCast, if_neg hin]
        exact if_neg hunread
      rw [List.foldl_cons, hreport, operandVerdicts, memRead_natCast, if_neg hin]
      exact (if_neg fun hk => hunread hk.2).trans (ih hrest)

/-- A handler consumes the candidate operands up to its count (R75). -/
theorem consumed_some {k : OperandPos} : consumed (some x) k = true ↔ k.offset ≤ x.operandCount := by
  simp [consumed]

/-- The loop of phase 4 for an unrecognised opcode reports every candidate operand past memory (R104). -/
theorem operandVerdicts_none (s : State) :
    operandVerdicts none s [.operand1, .operand2] = .go (withEvents s (unreadReports s.pc 0)) := by
  rw [operandVerdicts_go (fun k _ hk => by simp [consumed] at hk)]
  exact congrArg Verdict.go (s.reportOperands_eq none)

/-- The loop of phase 4 with every consumed operand in memory reports the unread ones past it (R104). -/
theorem operandVerdicts_some (h : s.pc + x.operandCount ≤ 255) :
    operandVerdicts (some x) s [.operand1, .operand2] = .go (withEvents s (unreadReports s.pc x.operandCount)) := by
  rw [operandVerdicts_go fun k _ hk => by have := consumed_some.1 hk; omega]
  exact congrArg Verdict.go (s.reportOperands_eq (some x))

/-- When the consumed operands do not all lie in memory, there is a first one that does not. -/
theorem exists_firstMissing (hp : s.pc ≤ 255) (h : 255 < s.pc + x.operandCount) : ∃ k, FirstMissing s x k := by
  have hcount := x.operandCount_le
  by_cases h1 : s.pc + 1 ≤ 255
  · refine ⟨.operand2, ?_, ?_, fun j hj => ?_⟩
    · simp only [OperandPos.offset]; omega
    · simp only [OperandPos.offset]; omega
    · cases j
      · exact h1
      · exact absurd hj (Nat.lt_irrefl _)
  · refine ⟨.operand1, ?_, ?_, fun j hj => ?_⟩
    · simp only [OperandPos.offset]; omega
    · simp only [OperandPos.offset]; omega
    · cases j <;> exact absurd hj (by decide)

/-- The loop of phase 4 raises the fault of the first consumed operand past memory, with no report before it (R104). -/
theorem operandVerdicts_missing {k : OperandPos} (h : FirstMissing s x k) :
    operandVerdicts (some x) s [.operand1, .operand2] =
      .raise s (.invalidAddress (s.pc + k.offset : Nat) (.operand k)) := by
  have hraise (ks : List OperandPos) : operandVerdicts (some x) s (k :: ks) =
      .raise s (.invalidAddress (s.pc + k.offset : Nat) (.operand k)) := by
    rw [operandVerdicts, memRead_natCast, if_neg (Nat.not_le.2 h.past)]
    exact if_pos ⟨Option.some_ne_none x, consumed_some.2 h.consumed⟩
  cases k
  case operand1 => exact hraise _
  case operand2 =>
    rw [operandVerdicts, memRead_natCast, if_pos (h.first .operand1 (by decide))]
    exact hraise []

/-- The register fields of a handler's instruction, each with the operand byte it is read from (R74). -/
theorem registerOperands_withOperands (operand : OperandPos → Byte) (x : Op) :
    registerOperands (x.withOperands (operand .operand1) (operand .operand2)) =
      (registerFields x).map fun p => (p.1, operand p.2) := by
  cases x <;> rfl

/-- The loop of phase 6 finds the first illegal field (R106). -/
theorem illegalField_eq (operand : OperandPos → Byte) (fields : List (RegField × OperandPos)) :
    illegalField operand fields =
      ((fields.map fun p => (p.1, operand p.2)).find? isIllegal).map illegalRegisterInfo := by
  induction fields with
  | nil => rfl
  | cons p rest ih =>
    rw [illegalField, List.map_cons]
    by_cases h : 8 ≤ (operand p.2).toNat
    · rw [if_pos h, List.find?_cons_of_pos (isIllegal_eq_true.2 h)]
      rfl
    · rw [if_neg h, ih, List.find?_cons_of_neg (mt isIllegal_eq_true.1 h)]

/-- At a recognised opcode whose operands let the step go on, the pseudocode executes the handler's instruction
(R106-R109). -/
theorem pseudoStep_go (hm : m.Valid) (hop : memRead s.mem s.pc = .ok op) (hx : m.lookup op = some x)
    (hgo : operandVerdicts (some x) s [.operand1, .operand2] = .go t) :
    pseudoStep m s = exec (x.withOperands (memRead s.mem (s.pc + OperandPos.operand1.offset : Nat)).byte
      (memRead s.mem (s.pc + OperandPos.operand2.offset : Nat)).byte) t := by
  have hlen : opLen op = x.length := by rw [← OpcodeMap.lookup_some hx, hm.opLen_byte]
  have hfields := registerOperands_withOperands (fun k => (memRead s.mem (s.pc + k.offset : Nat)).byte) x
  rw [exec_withOperands hlen, afterCheck, hfields, pseudoStep, hop]
  simp only [hx, hgo, illegalField_eq]
  cases ((registerFields x).map fun p => (p.1, (memRead s.mem (s.pc + p.2.offset : Nat)).byte)).find? isIllegal <;> rfl

end

/-- Settles O19: past memory, at an unrecognised opcode, with a consumed operand missing, and with all of them there. -/
theorem stepIsThePseudocode : Obligations.StepIsThePseudocode := by
  intro m hm s hs
  by_cases hp : s.pc ≤ 255
  · have hop : memRead s.mem s.pc = .ok (s.mem.cell s.pc) := by rw [memRead_natCast, if_pos hp]
    cases hx : m.lookup (s.mem.cell s.pc) with
    | none =>
      rw [stepWith_unrecognized hs hop hx, pseudoStep, hop]
      simp only [hx, operandVerdicts_none]
    | some x =>
      by_cases hin : s.pc + x.operandCount ≤ 255
      · rw [stepWith_of_decodeWith hs (decodeWith_of_operands_in hop hx hin), Op.withOperands_op,
          pseudoStep_go hm hop hx (operandVerdicts_some hin)]
      · obtain ⟨k, hk⟩ := exists_firstMissing hp (Nat.lt_of_not_le hin)
        rw [stepWith_missingOperand hs hop hx hk, pseudoStep, hop]
        simp only [hx, operandVerdicts_missing hk]
  · rw [stepWith_opcodeFetch hs (Nat.lt_of_not_le hp), pseudoStep, memRead_natCast, if_neg hp]

end Sys2Proof.Machine
end

section
/-! PROOFS, family 40_engine. The state a run ends in (R112). -/

namespace Sys2Proof.Machine

/-- A run from a halted state ends there, whatever the fuel. -/
theorem runWith_of_halted (m : OpcodeMap) (n : Nat) {s : State} (h : s.halted = true) : runWith m n s = some s := by
  cases n <;> rw [runWith, if_pos h]

/-- A run that ends, ends in a halted state. -/
theorem halted_of_runWith {m : OpcodeMap} {n : Nat} {s t : State} (h : runWith m n s = some t) : t.halted = true := by
  induction n generalizing s with
  | zero =>
    rw [runWith] at h
    split at h
    · next hs => cases h; exact hs
    · cases h
  | succ n ih =>
    rw [runWith] at h
    split at h
    · next hs => cases h; exact hs
    · split at h
      · exact ih h
      · cases h
      · cases h

/-- More fuel does not change the state a run ends in (D21). -/
theorem runWith_add {m : OpcodeMap} {n : Nat} {s t : State} (h : runWith m n s = some t) (k : Nat) :
    runWith m (n + k) s = some t := by
  induction n generalizing s with
  | zero =>
    rw [runWith] at h
    split at h
    · next hs => rw [runWith_of_halted m _ hs, h]
    · cases h
  | succ n ih =>
    rw [Nat.succ_add]
    rw [runWith] at h ⊢
    split at h
    · next hs => rw [if_pos hs, h]
    · next hs =>
      rw [if_neg hs]
      cases hstep : stepWith m s with
      | next u => rw [hstep] at h; exact ih h
      | fault r => rw [hstep] at h; cases h
      | refused r => rw [hstep] at h; cases h

/-- Settles O24: a run that ends, ends in a halted state, which has no step, and more fuel changes nothing. -/
theorem runEndsInOneFinalState : Obligations.RunEndsInOneFinalState :=
  fun _ _ k _ _ h => ⟨halted_of_runWith h, if_pos (halted_of_runWith h), runWith_add h k⟩

end Sys2Proof.Machine
end

section
/-! PROOFS, family 41_system_and_data. An instruction whose operands run past the top of memory (R104). -/

namespace Sys2Proof.Machine

/-- A consumed operand at 256 is the first one past memory, and the step is its fault (R104). -/
theorem step_operand_at_256 {s : State} {p : Nat} {x : Op} {k : OperandPos} (hs : s.halted = false) (hpc : s.pc = p)
    (hop : memRead s.mem p = .ok (opcodeMap x)) (hk : k.offset ≤ x.operandCount) (hend : p + k.offset = 256) :
    step s = .next (faulted s (.invalidAddress 256 (.operand k))) := by
  subst hpc
  have hmissing : FirstMissing s x k := ⟨hk, by omega, fun j hj => by omega⟩
  rw [step, stepWith_missingOperand hs hop (opcodeMap_valid.lookup_byte x) hmissing, hend]
  rfl

/-- At 254 a handler that consumes one operand has only operand2 to report (R104). -/
theorem unreadReports_254_one : unreadReports 254 1 = [.report (.invalidAddress 256 254 .operand2)] := rfl

end Sys2Proof.Machine
end

section
/-! PROOFS, family 41_system_and_data. HLT, LDI and PRN (R130-R132). -/

namespace Sys2Proof.Machine

/-- HLT emits its notice, halts and advances, whatever the state (R130, R109). -/
theorem exec_hlt (s : State) : exec .hlt s = .next ((s.emit .haltNotice).halt.advance 1) := rfl

section
variable {rA : Byte} {r : Reg}

/-- LDI writes the immediate to the slot its operand names, and advances (R131, R109). -/
theorem exec_ldi (h : slot rA = some r) (imm : Byte) (s : State) :
    exec (.ldi rA imm) s = .next ((s.setReg r imm).advance 3) := withReg_slot h

/-- PRN emits the value of the slot its operand names, and advances (R132, R109). -/
theorem exec_prn (h : slot rA = some r) (s : State) :
    exec (.prn rA) s = .next ((s.emit (.print (s.reg r))).advance 2) := withReg_slot h

/-- PRN right after LDI of the same register prints the immediate (R132). -/
theorem exec_ldi_prn_out (h : slot rA = some r) (imm : Byte) (s : State) :
    ∃ t u, exec (.ldi rA imm) s = .next t ∧ exec (.prn rA) t = .next u ∧ u.out = s.out ++ [.print imm] := by
  refine ⟨_, _, exec_ldi h imm s, exec_prn h _, ?_⟩
  simp [State.reg_setReg]

/-- PRN at 254 reports the unread operand2 and then prints, both bytes of it being in memory (R104, R132). -/
theorem step_prn_at_254 {s : State} (h : slot rA = some r) (hs : s.halted = false) (hpc : s.pc = 254)
    (hop : memRead s.mem 254 = .ok (opcodeMap .prn)) (hA : memRead s.mem 255 = .ok rA) :
    step s = .next { s with
      pc := 256
      out := s.out ++ [.report (.invalidAddress 256 254 .operand2), .print (s.reg r)] } := by
  have hbytes : holdsBytes s s.pc (encodeWith opcodeMap (.prn rA)) := by
    rw [hpc]
    exact holdsBytes_cons.2 ⟨hop, holdsBytes_cons.2 ⟨hA, holdsBytes_nil s _⟩⟩
  have hreports : unreadReports s.pc (Instr.prn rA).op.operandCount = [.report (.invalidAddress 256 254 .operand2)] := by
    rw [hpc]
    exact unreadReports_254_one
  rw [step, stepWith_of_holdsBytes opcodeMap_valid hs hbytes, exec_prn h, hreports]
  simp [State.advance, State.setPc, State.emit, withEvents, hpc, State.reg]

end

/-- HLT in memory halts the machine after the reports of both candidate operands (R104, R130). -/
theorem step_hlt {s : State} (hs : s.halted = false) (hop : memRead s.mem s.pc = .ok (opcodeMap .hlt)) :
    step s = .next (((withEvents s (unreadReports s.pc 0)).emit .haltNotice).halt.advance 1) := by
  rw [step, stepWith_of_holdsBytes (i := .hlt) opcodeMap_valid hs (holdsBytes_cons.2 ⟨hop, holdsBytes_nil s _⟩), exec_hlt]
  rfl

/-- Settles O28: HLT runs from every state, its byte at pc decodes to it, and what it leaves is halted. -/
theorem hltHaltsTheMachine : Obligations.HltHaltsTheMachine :=
  ⟨rfl, exec_hlt, fun _ hs hop => ⟨_, step_hlt hs hop, (runningMachineAlwaysSteps opcodeMap _).2 rfl, rfl⟩⟩

/-- Settles O29: a legal operand names the slot written, an illegal one fails the check, and at 254 and 255 a consumed
operand is past memory. -/
theorem ldiLoadsTheImmediate : Obligations.LdiLoadsTheImmediate := by
  intro rA imm s
  refine ⟨rfl, fun h => ?legal, fun h => ?illegal, fun hs hpc hop => ?at254, fun hs hpc hop => ?at255⟩
  case legal => exact exec_ldi (slot_of_lt h) imm s
  case illegal => exact withReg_illegal h
  case at254 => exact step_operand_at_256 (x := .ldi) hs hpc hop (by decide) rfl
  case at255 => exact step_operand_at_256 (x := .ldi) hs hpc hop (by decide) rfl

/-- Settles O30: a legal operand names the slot printed, an illegal one fails the check; at 255 operand1 is past memory, at
254 only the unread operand2 is. -/
theorem prnPrintsTheRegister : Obligations.PrnPrintsTheRegister := by
  intro rA s
  refine ⟨rfl, fun h => ?legal, fun v => ?text, fun h => ?illegal, fun hs hpc hop => ?at255,
    fun h hs hpc hop hA => ?at254, fun imm h => ?afterLdi⟩
  case legal => exact exec_prn (slot_of_lt h) s
  case text => rfl
  case illegal => exact withReg_illegal h
  case at255 => exact step_operand_at_256 (x := .prn) hs hpc hop (by decide) rfl
  case at254 => exact step_prn_at_254 (slot_of_lt h) hs hpc hop hA
  case afterLdi => exact exec_ldi_prn_out (slot_of_lt h) imm s

end Sys2Proof.Machine
end

section
/-! PROOFS, family 42_alu. The selectors the ALU rejects, and the faults a step records (R143, R189). -/

namespace Sys2Proof.Machine

/-- The ALU rejects a selector other than ADD and MUL, whatever registers it names (R143). -/
theorem aluApply_other (n : Nat) (a b : Reg) (s : State) :
    aluApply (.other n) a b s = .raise (.unsupportedALUOperation (.other n)) := rfl

/-- The record of a raised fault is of the kind of its info (R171, R175). -/
theorem State.kind_of_raise {s : State} {info : FaultInfo} {f : FaultRecord} (h : (s.raise info).fault = some f) :
    f.kind = info.kind := by
  cases h
  rfl

/-- Settles O25: a step raises the fault of a missing byte, of an unrecognised opcode or of the instruction it decoded, and
none of these is an unsupported ALU operation. -/
theorem unsupportedAluOperationIsUnreachable : Obligations.UnsupportedAluOperationIsUnreachable := by
  refine ⟨fun n a b s => by rw [aluApply_other]; rfl, fun m s t f hs h hf => ?_⟩
  obtain ⟨-, ⟨-, rfl⟩ | ⟨k, -, rfl⟩ | ⟨op, -, rfl⟩ | ⟨i, -, he⟩⟩ := stepWith_next h
  · simp [State.kind_of_raise hf, FaultInfo.kind]
  · simp [State.kind_of_raise hf, FaultInfo.kind]
  · simp [State.kind_of_raise hf, FaultInfo.kind]
  · rcases exec_next he with ⟨info, rfl, hinfo⟩ | hc
    · rw [State.kind_of_raise hf]
      exact hinfo.ne_unsupported
    · cases hs.symm.trans (hc.fault_eq.symm.trans hf)

end Sys2Proof.Machine
end

section
/-! PROOFS, family 42_alu. ADD and MUL: the result each writes, and the faults they share (R141, R142). -/

namespace Sys2Proof.Machine

section
variable {rA rB : Byte} {a b : Reg}

/-- ADD writes the sum to the slot its first operand names, and advances (R141, R109). -/
theorem exec_add (hA : slot rA = some a) (hB : slot rB = some b) (s : State) :
    exec (.add rA rB) s =
      .next ((s.setReg a (BitVec.ofNat 8 (((s.reg a).toNat + (s.reg b).toNat) % 256))).advance 3) :=
  (withReg_slot hA).trans (withReg_slot hB)

/-- MUL writes the product to the slot its first operand names, and advances (R142, R109). -/
theorem exec_mul (hA : slot rA = some a) (hB : slot rB = some b) (s : State) :
    exec (.mul rA rB) s =
      .next ((s.setReg a (BitVec.ofNat 8 (((s.reg a).toNat * (s.reg b).toNat) % 256))).advance 3) :=
  (withReg_slot hA).trans (withReg_slot hB)

end

/-- The faults of ADD and of MUL: the first illegal register of rA and rB, and the first operand past the top of memory
(R104, R106). -/
theorem add_mul_faults {x : Op} (hx : x = .add ∨ x = .mul) (rA rB : Byte) (s : State) :
    (8 ≤ rA.toNat → exec (x.withOperands rA rB) s = .next (faulted s (.illegalRegister rA .rA))) ∧
    (rA.toNat < 8 → 8 ≤ rB.toNat → exec (x.withOperands rA rB) s = .next (faulted s (.illegalRegister rB .rB))) ∧
    (s.halted = false → s.pc = 254 → memRead s.mem 254 = .ok (opcodeMap x) →
      step s = .next (faulted s (.invalidAddress 256 (.operand .operand2)))) ∧
    (s.halted = false → s.pc = 255 → memRead s.mem 255 = .ok (opcodeMap x) →
      step s = .next (faulted s (.invalidAddress 256 (.operand .operand1)))) := by
  have hfields : registerOperands (x.withOperands rA rB) = [(.rA, rA), (.rB, rB)] := by rcases hx with rfl | rfl <;> rfl
  have hcount : x.operandCount = 2 := by rcases hx with rfl | rfl <;> rfl
  refine ⟨fun hA => ?illegalA, fun hA hB => ?illegalB, fun hs hpc hop => ?at254, fun hs hpc hop => ?at255⟩
  case illegalA => exact illegalRegisterOperandFaults.1 _ s [] [(.rB, rB)] .rA rA hfields (by simp) hA
  case illegalB => exact illegalRegisterOperandFaults.1 _ s [(.rA, rA)] [] .rB rB hfields (by simpa using hA) hB
  case at254 => exact step_operand_at_256 hs hpc hop hcount.ge rfl
  case at255 => exact step_operand_at_256 hs hpc hop (by rw [hcount]; decide) rfl

/-- Settles O31: legal operands name the slots added and written, and the faults are those shared with MUL. -/
theorem addWritesTheSum : Obligations.AddWritesTheSum := fun rA rB s =>
  ⟨rfl, fun hA hB => exec_add (slot_of_lt hA) (slot_of_lt hB) s, add_mul_faults (.inl rfl) rA rB s⟩

/-- Settles O32: legal operands name the slots multiplied and written, and the faults are those shared with ADD. -/
theorem mulWritesTheProduct : Obligations.MulWritesTheProduct := fun rA rB s =>
  ⟨rfl, fun hA hB => exec_mul (slot_of_lt hA) (slot_of_lt hB) s, add_mul_faults (.inr rfl) rA rB s⟩

end Sys2Proof.Machine
end

section
/-! PROOFS, family 43_stack. What a completed PUSH leaves, and when PUSH faults (R151). -/

namespace Sys2Proof.Machine

/-- The state a completed PUSH of slot `r` leaves: the slot is read after the decrement (R151, R109). -/
def State.pushed (s : State) (r : Reg) : State :=
  let t := s.setReg .sp (BitVec.ofInt 8 s.pushAddr)
  (t.store s.pushAddr (t.reg r)).advance 2

section
variable {rA : Byte} {r : Reg} {s : State}

/-- A push address is negative exactly when SP = 0 (R150, D7). -/
theorem State.pushAddr_neg : s.pushAddr < 0 ↔ (s.reg .sp).toNat = 0 := by
  unfold State.pushAddr
  omega

/-- With SP at least 1, PUSH of a legal register completes (R151). -/
theorem exec_push (hr : slot rA = some r) (hsp : 1 ≤ (s.reg .sp).toNat) : exec (.push rA) s = .next (s.pushed r) := by
  refine (withReg_slot hr).trans ?_
  rw [pushPhase, if_neg (mt State.pushAddr_neg.1 (Nat.ne_of_gt hsp))]
  rfl

/-- With SP = 0, PUSH of a legal register is the fault of address -1 (R151, D7). -/
theorem exec_push_at_zero (hr : slot rA = some r) (hsp : (s.reg .sp).toNat = 0) :
    exec (.push rA) s = .next (s.raise (.invalidAddress (-1) .stackPush)) := by
  refine (withReg_slot hr).trans ?_
  rw [pushPhase, if_pos (State.pushAddr_neg.2 hsp)]
  rfl

@[simp] theorem State.pushed_pc (s : State) (r : Reg) : (s.pushed r).pc = s.pc + 2 := by simp [State.pushed]
@[simp] theorem State.pushed_halted (s : State) (r : Reg) : (s.pushed r).halted = s.halted := by simp [State.pushed]
@[simp] theorem State.pushed_fault (s : State) (r : Reg) : (s.pushed r).fault = s.fault := by simp [State.pushed]
@[simp] theorem State.pushed_out (s : State) (r : Reg) : (s.pushed r).out = s.out := by simp [State.pushed]

/-- A completed PUSH writes SP and no other register (R151). -/
theorem State.pushed_regs (r : Reg) (hsp : 1 ≤ (s.reg .sp).toNat) :
    (s.pushed r).regs = s.regs.set 7 (BitVec.ofNat 8 ((s.reg .sp).toNat - 1)) := by
  simp only [State.pushed, State.advance_regs, State.store_regs, State.setReg_regs, State.ofInt_pushAddr hsp]
  rfl

/-- A completed PUSH leaves SP one lower (R151). -/
theorem State.pushed_sp (r : Reg) (hsp : 1 ≤ (s.reg .sp).toNat) :
    ((s.pushed r).reg .sp).toNat = (s.reg .sp).toNat - 1 := by
  have := (s.reg .sp).isLt
  simp only [State.pushed, State.reg_advance, State.reg_store, State.reg_setReg, if_pos, State.ofInt_pushAddr hsp,
    BitVec.toNat_ofNat]
  omega

/-- A completed PUSH leaves every byte but the one at the push address (R151). -/
theorem State.memRead_pushed_ne (s : State) (r : Reg) {b : Int} (hb : b ≠ s.pushAddr) :
    memRead (s.pushed r).mem b = memRead s.mem b := memRead_store_ne _ _ hb

/-- A completed PUSH leaves at the push address what its slot then holds (R151, D12). -/
theorem State.memRead_pushed_self (r : Reg) (hm : s.mem.wf) (hsp : 1 ≤ (s.reg .sp).toNat) :
    memRead (s.pushed r).mem s.pushAddr = .ok ((s.pushed r).reg r) := by
  have haddr : 0 ≤ s.pushAddr := Int.not_lt.1 (mt State.pushAddr_neg.1 (Nat.ne_of_gt hsp))
  simp only [State.pushed, State.reg_advance, State.reg_store]
  exact memRead_store_self (s := s.setReg .sp _) hm (State.pushAddr_in haddr) _

end

/-- Settles O33: with SP at least 1 the PUSH completes, with SP = 0 its address is -1; an illegal operand fails the check,
and at 255 operand1 is past memory. -/
theorem pushStoresBelowTheStackPointer : Obligations.PushStoresBelowTheStackPointer := by
  intro rA s
  refine ⟨rfl, fun h hsp => ?completes, fun h hsp => ?atZero, fun h => ?illegal, fun hs hpc hop => ?at255⟩
  case completes =>
    exact ⟨_, exec_push (slot_of_lt h) hsp, rfl, State.pushed_regs _ hsp, s.pushed_pc _, s.pushed_halted _,
      s.pushed_fault _, s.pushed_out _, fun hm => State.memRead_pushed_self _ hm hsp, fun b => s.memRead_pushed_ne _⟩
  case atZero => exact exec_push_at_zero (slot_of_lt h) hsp
  case illegal => exact withReg_illegal h
  case at255 => exact step_operand_at_256 (x := .push) hs hpc hop (by decide) rfl

end Sys2Proof.Machine
end

section
/-! PROOFS, family 43_stack. POP: the empty stack, the completed read and the increment past 255 (R152). -/

namespace Sys2Proof.Machine

/-- Of two writes to one slot the second stays (R9). -/
@[simp] theorem State.setReg_setReg (s : State) (r : Reg) (v w : Byte) : (s.setReg r v).setReg r w = s.setReg r w := by
  simp [State.setReg]

/-- POP of another register increments SP itself (R152). -/
theorem popBase_of_ne_sp {r : Reg} (h : r ≠ .sp) (s : State) : popBase r s = s.reg .sp := if_neg h

/-- POP of SP increments the byte it popped (R152, D12). -/
theorem popBase_sp (s : State) : popBase .sp s = s.top := if_pos rfl

section
variable {rA : Byte} {r : Reg} {s : State}

/-- POP on an empty stack reports it and advances (R152, R109). -/
theorem exec_pop_empty (hr : slot rA = some r) (hsp : s.reg .sp = 0xF4) :
    exec (.pop rA) s = .next ((s.report (.stackEmpty s.pc)).advance 2) := by
  refine (withReg_slot hr).trans ?_
  rw [popPhase, if_pos (show s.reg .sp = Config.spInit from hsp)]
  rfl

/-- POP writes the top of the stack to its register and then increments SP (R152, R109). -/
theorem exec_pop (hr : slot rA = some r) (hsp : s.reg .sp ≠ 0xF4) (hbase : (popBase r s).toNat ≤ 254) :
    exec (.pop rA) s =
      .next (((s.setReg r s.top).setReg .sp (BitVec.ofNat 8 ((popBase r s).toNat + 1))).advance 2) := by
  have hmax : ¬ (popBase r s).toNat + 1 > Config.addrMax := Nat.not_lt.2 (Nat.succ_le_succ hbase)
  refine (withReg_slot hr).trans ?_
  rw [popPhase, if_neg (show ¬ s.reg .sp = Config.spInit from hsp), if_neg hmax]
  rfl

/-- POP whose increment would make SP 256 is the fault of that address (R152, D8). -/
theorem exec_pop_past (hr : slot rA = some r) (hsp : s.reg .sp ≠ 0xF4) (hbase : (popBase r s).toNat = 255) :
    exec (.pop rA) s = .next (s.raise (.invalidAddress 256 .stackPop)) := by
  have hmax : (popBase r s).toNat + 1 > Config.addrMax := by rw [hbase]; decide
  refine (withReg_slot hr).trans ?_
  rw [popPhase, if_neg (show ¬ s.reg .sp = Config.spInit from hsp), if_pos hmax]
  rfl

end

/-- Settles O34: POP splits on the empty stack, on its register being SP, and on the increment passing 255. -/
theorem popReadsTheTopOfStack : Obligations.PopReadsTheTopOfStack := by
  intro rA s
  refine ⟨rfl, fun h hsp => ?empty, fun v hv hsp => ?nonempty, fun h => ?illegal, fun hs hpc hop => ?at255⟩
  case empty => exact exec_pop_empty (slot_of_lt h) hsp
  case nonempty =>
    obtain rfl : s.top = v := Access.ok.inj (s.top_eq.symm.trans hv)
    have hother (h : rA.toNat < 7) : popBase ⟨rA.toNat, by omega⟩ s = s.reg .sp :=
      popBase_of_ne_sp (ne_sp (Nat.ne_of_lt h)) s
    refine ⟨fun h hle => ?_, fun h hle => ?_, fun h h255 => ?_, fun h h255 => ?_⟩
    · rw [exec_pop (slot_of_lt _) hsp (by rwa [hother h]), hother h]
      rfl
    · rw [exec_pop (slot_eq_some.2 h) hsp (by rwa [popBase_sp]), popBase_sp, State.setReg_setReg]
      rfl
    · exact exec_pop_past (slot_of_lt _) hsp (by rwa [hother h])
    · exact exec_pop_past (slot_eq_some.2 h) hsp (by rwa [popBase_sp])
  case illegal => exact withReg_illegal h
  case at255 => exact step_operand_at_256 (x := .pop) hs hpc hop (by decide) rfl

end Sys2Proof.Machine
end

section
/-! PROOFS, family 43_stack. PUSH followed by POP, and the capacity of the stack (R153). -/

namespace Sys2Proof.Machine

/-- Writing a slot its own value changes nothing (R9). -/
@[simp] theorem State.setReg_reg_self (s : State) (r : Reg) : s.setReg r (s.reg r) = s := by
  simp [State.setReg, State.reg]

section
variable {rA : Byte} {r : Reg} {s : State}

/-- After a completed PUSH the top of the stack is what its slot holds (R151). -/
theorem State.top_pushed (r : Reg) (hm : s.mem.wf) (hsp : 1 ≤ (s.reg .sp).toNat) :
    (s.pushed r).top = (s.pushed r).reg r := by
  have haddr : (((s.pushed r).reg .sp).toNat : Int) = s.pushAddr := by
    rw [State.pushed_sp r hsp, Int.natCast_sub hsp]
    rfl
  have htop := (s.pushed r).top_eq
  rw [haddr, State.memRead_pushed_self r hm hsp] at htop
  exact (Access.ok.inj htop).symm

/-- A POP of the slot just pushed increments the SP the PUSH left, also when the slot is SP itself (R153). -/
theorem popBase_pushed (r : Reg) (hm : s.mem.wf) (hsp : 1 ≤ (s.reg .sp).toNat) :
    popBase r (s.pushed r) = (s.pushed r).reg .sp := by
  by_cases hr : r = .sp
  · subst hr
    rw [popBase_sp, State.top_pushed .sp hm hsp]
  · exact popBase_of_ne_sp hr _

/-- Writing SP its old value undoes a completed PUSH, as to the registers. -/
theorem State.setReg_sp_pushed_regs (r : Reg) (hsp : 1 ≤ (s.reg .sp).toNat) :
    ((s.pushed r).setReg .sp (s.reg .sp)).regs = s.regs := by
  rw [State.setReg_regs, State.pushed_regs r hsp]
  exact (Vector.set_set ..).trans (congrArg State.regs (s.setReg_reg_self .sp))

/-- A POP of the slot just pushed writes SP its old value and nothing else, unless the PUSH left the stack empty (R153). -/
theorem exec_pop_pushed (hr : slot rA = some r) (hm : s.mem.wf) (hsp : 1 ≤ (s.reg .sp).toNat)
    (hempty : s.reg .sp ≠ 0xF5) :
    exec (.pop rA) (s.pushed r) = .next (((s.pushed r).setReg .sp (s.reg .sp)).advance 2) := by
  have hlt := (s.reg .sp).isLt
  have hdec := State.pushed_sp r hsp
  have hne : (s.pushed r).reg .sp ≠ 0xF4 := fun h => by
    have h244 : ((s.pushed r).reg .sp).toNat = 244 := congrArg BitVec.toNat h
    exact hempty (BitVec.eq_of_toNat_eq (show _ = 245 by omega))
  have hinc : ((s.pushed r).reg .sp).toNat + 1 = (s.reg .sp).toNat := by omega
  rw [exec_pop hr hne (by rw [popBase_pushed r hm hsp]; omega), popBase_pushed r hm hsp, State.top_pushed r hm hsp,
    State.setReg_reg_self, hinc, BitVec.ofNat_toNat, BitVec.setWidth_eq]

end

/-- Settles O42: the PUSH leaves its slot's value on top, so the POP rewrites the slot with what it holds and SP with what it
was. -/
theorem pushThenPopRestores : Obligations.PushThenPopRestores := by
  intro rA s h hm h0 hempty
  have hsp : 1 ≤ (s.reg .sp).toNat := Nat.pos_of_ne_zero fun hz => h0 (BitVec.eq_of_toNat_eq hz)
  have hr := slot_of_lt h
  refine ⟨_, _, exec_push hr hsp, exec_pop_pushed hr hm hsp hempty, State.setReg_sp_pushed_regs _ hsp, rfl, ?pc, ?read⟩
  case pc => simp
  case read =>
    have hreg (t : State) : t.reg ⟨rA.toNat, h⟩ = t.regs.toList.getD rA.toNat 0 := by simp [State.reg, h]
    rw [← hreg]
    exact State.memRead_pushed_self _ hm hsp

/-- A repeated instruction that leaves the machine running goes on from the state it left. -/
theorem repeated_succ {i : Instr} {s t : State} (h : exec i s = .next t) (ht : t.halted = false) (n : Nat) :
    repeated i (n + 1) s = repeated i n t := by
  simp [repeated, h, ht]

/-- What `n` completed PUSHes leave of a running machine: SP is `n` lower, and memory is as before outside the `n` bytes
below the first SP (R153). -/
structure PushedTimes (n : Nat) (s t : State) : Prop where
  halted : t.halted = false
  sp : (t.reg .sp).toNat = (s.reg .sp).toNat - n
  pc : t.pc = s.pc + 2 * n
  mem : ∀ a : Int, a < (s.reg .sp).toNat - n ∨ s.pushAddr < a → memRead t.mem a = memRead s.mem a

/-- `n` PUSHes in a row complete from any SP of at least `n` (R153). -/
theorem repeated_push {rA : Byte} {r : Reg} (hr : slot rA = some r) {n : Nat} {s : State} (hs : s.halted = false)
    (hn : n ≤ (s.reg .sp).toNat) : ∃ t, repeated (.push rA) n s = some t ∧ PushedTimes n s t := by
  induction n generalizing s with
  | zero => exact ⟨s, rfl, hs, rfl, rfl, fun _ _ => rfl⟩
  | succ n ih =>
    have hsp : 1 ≤ (s.reg .sp).toNat := by omega
    have hdec := State.pushed_sp r hsp
    have hrun : (s.pushed r).halted = false := (s.pushed_halted r).trans hs
    obtain ⟨t, ht, hrest⟩ := ih hrun (by omega)
    refine ⟨t, (repeated_succ (exec_push hr hsp) hrun n).trans ht, hrest.halted, ?sp, ?pc, fun a ha => ?mem⟩
    case sp => rw [hrest.sp]; omega
    case pc => rw [hrest.pc, State.pushed_pc]; omega
    case mem =>
      simp only [State.pushAddr] at ha
      rw [hrest.mem a (by simp only [State.pushAddr]; omega)]
      exact s.memRead_pushed_ne r (by simp only [State.pushAddr]; omega)

/-- Settles O43: 244 PUSHes bring SP from 0xF4 to 0, where the next one faults. -/
theorem stackHolds244Pushes : Obligations.StackHolds244Pushes := by
  intro rA s h hs hF4
  have hr := slot_of_lt h
  have hsp : (s.reg .sp).toNat = 244 := by rw [hF4]; rfl
  refine ⟨fun n hn => ?_, ?_⟩
  · obtain ⟨t, ht, hpushed⟩ := repeated_push hr hs (hsp.symm ▸ hn)
    refine ⟨t, ht, hsp ▸ hpushed.sp, hpushed.pc, fun a ha => hpushed.mem a ?_⟩
    simp only [State.pushAddr]
    omega
  · obtain ⟨t, ht, hpushed⟩ := repeated_push hr hs hsp.ge
    exact ⟨t, ht, exec_push_at_zero hr (by rw [hpushed.sp, hsp])⟩

end Sys2Proof.Machine
end

section
/-! PROOFS, family 44_call_return. What a completed CALL leaves, and when CALL faults (R160). -/

namespace Sys2Proof.Machine

/-- The state a completed CALL of slot `r` leaves: the slot is read after the decrement (R160, D12). -/
def State.called (s : State) (r : Reg) : State :=
  let t := s.setReg .sp (BitVec.ofInt 8 s.pushAddr)
  (t.store s.pushAddr (BitVec.ofNat 8 (s.pc + 2))).setPc (t.reg r).toNat

section
variable {rA : Byte} {r : Reg} {s : State}

/-- With SP at least 1 and a return address in memory, CALL of a legal register completes (R160). -/
theorem exec_call (hr : slot rA = some r) (hsp : 1 ≤ (s.reg .sp).toNat) (hpc : s.pc + 2 ≤ 255) :
    exec (.call rA) s = .next (s.called r) := by
  have hmax : ¬ s.pc + 2 > Config.addrMax := Nat.not_lt.2 hpc
  refine (withReg_slot hr).trans ?_
  rw [callPhase, if_neg (mt State.pushAddr_neg.1 (Nat.ne_of_gt hsp)), if_neg hmax]
  rfl

/-- With SP = 0, CALL of a legal register is the fault of address -1, whatever the return address (R160, D7). -/
theorem exec_call_at_zero (hr : slot rA = some r) (hsp : (s.reg .sp).toNat = 0) :
    exec (.call rA) s = .next (s.raise (.invalidAddress (-1) .stackPush)) := by
  refine (withReg_slot hr).trans ?_
  rw [callPhase, if_pos (State.pushAddr_neg.2 hsp)]
  rfl

/-- With SP at least 1, CALL whose return address is past memory is the fault of that address (R160, D9). -/
theorem exec_call_return_past (hr : slot rA = some r) (hsp : 1 ≤ (s.reg .sp).toNat) (hpc : 255 < s.pc + 2) :
    exec (.call rA) s = .next (s.raise (.invalidAddress (s.pc + 2 : Nat) .returnAddress)) := by
  have hmax : s.pc + 2 > Config.addrMax := hpc
  refine (withReg_slot hr).trans ?_
  rw [callPhase, if_neg (mt State.pushAddr_neg.1 (Nat.ne_of_gt hsp)), if_pos hmax]
  rfl

@[simp] theorem State.called_halted (s : State) (r : Reg) : (s.called r).halted = s.halted := by simp [State.called]
@[simp] theorem State.called_fault (s : State) (r : Reg) : (s.called r).fault = s.fault := by simp [State.called]
@[simp] theorem State.called_out (s : State) (r : Reg) : (s.called r).out = s.out := by simp [State.called]

/-- A completed CALL jumps to what its slot then holds (R160, D12). -/
theorem State.called_pc (s : State) (r : Reg) : (s.called r).pc = ((s.called r).reg r).toNat := by simp [State.called]

/-- A completed CALL leaves the registers as a completed PUSH does: SP is decremented (R151, R160). -/
theorem State.called_regs_eq_pushed (s : State) (r : Reg) : (s.called r).regs = (s.pushed r).regs := by
  simp [State.called, State.pushed]

/-- A completed CALL writes SP and no other register (R160). -/
theorem State.called_regs (r : Reg) (hsp : 1 ≤ (s.reg .sp).toNat) :
    (s.called r).regs = s.regs.set 7 (BitVec.ofNat 8 ((s.reg .sp).toNat - 1)) :=
  (s.called_regs_eq_pushed r).trans (State.pushed_regs r hsp)

/-- A completed CALL leaves SP one lower (R160). -/
theorem State.called_sp (r : Reg) (hsp : 1 ≤ (s.reg .sp).toNat) :
    ((s.called r).reg .sp).toNat = (s.reg .sp).toNat - 1 := by
  rw [State.reg, State.called_regs_eq_pushed]
  exact State.pushed_sp r hsp

/-- A completed CALL leaves every byte but the one at the push address (R160). -/
theorem State.memRead_called_ne (s : State) (r : Reg) {b : Int} (hb : b ≠ s.pushAddr) :
    memRead (s.called r).mem b = memRead s.mem b := memRead_store_ne _ _ hb

/-- A completed CALL leaves the return address at the push address (R160). -/
theorem State.memRead_called_self (r : Reg) (hm : s.mem.wf) (hsp : 1 ≤ (s.reg .sp).toNat) :
    memRead (s.called r).mem s.pushAddr = .ok (BitVec.ofNat 8 (s.pc + 2)) := by
  have haddr : 0 ≤ s.pushAddr := Int.not_lt.1 (mt State.pushAddr_neg.1 (Nat.ne_of_gt hsp))
  exact memRead_store_self (s := s.setReg .sp _) hm (State.pushAddr_in haddr) _

end

/-- Settles O35: CALL splits on SP being 0 and on the return address passing 255; an illegal operand fails the check, and at
255 operand1 is past memory. -/
theorem callPushesTheReturnAddress : Obligations.CallPushesTheReturnAddress := by
  intro rA s
  refine ⟨rfl, fun h hsp hpc => ?completes, fun h hsp => ?atZero, fun h hsp hpc => ?returnPast, fun h => ?illegal,
    fun hs hpc hop => ?at255⟩
  case completes =>
    exact ⟨_, exec_call (slot_of_lt h) hsp hpc, rfl, State.called_regs _ hsp, s.called_pc _, s.called_halted _,
      s.called_fault _, s.called_out _, fun hm => State.memRead_called_self _ hm hsp, fun b => s.memRead_called_ne _⟩
  case atZero => exact exec_call_at_zero (slot_of_lt h) hsp
  case returnPast => exact exec_call_return_past (slot_of_lt h) hsp hpc
  case illegal => exact withReg_illegal h
  case at255 => exact step_operand_at_256 (x := .call) hs hpc hop (by decide) rfl

end Sys2Proof.Machine
end

section
/-! PROOFS, family 44_call_return. RET: the completed read, the increment past 255, and the step (R161). -/

namespace Sys2Proof.Machine

section
variable {s : State}

/-- The top of the stack is whatever byte a read at SP answers (R161). -/
theorem State.top_of_memRead {v : Byte} (h : memRead s.mem (s.reg .sp).toNat = .ok v) : s.top = v :=
  Access.ok.inj (s.top_eq.symm.trans h)

/-- RET jumps to the top of the stack and increments SP (R161). -/
theorem exec_ret (hsp : (s.reg .sp).toNat ≤ 254) :
    exec .ret s = .next ((s.setReg .sp (BitVec.ofNat 8 ((s.reg .sp).toNat + 1))).setPc s.top.toNat) := by
  have hmax : ¬ (s.reg .sp).toNat + 1 > Config.addrMax := Nat.not_lt.2 (Nat.succ_le_succ hsp)
  rw [exec, execRet, retPhase, if_neg hmax]
  rfl

/-- RET whose increment would make SP 256 is the fault of that address (R161, D8). -/
theorem exec_ret_past (hsp : (s.reg .sp).toNat = 255) :
    exec .ret s = .next (s.raise (.invalidAddress 256 .stackPop)) := by
  have hmax : (s.reg .sp).toNat + 1 > Config.addrMax := by rw [hsp]; decide
  rw [exec, execRet, retPhase, if_pos hmax]
  rfl

/-- RET in memory is executed after the reports of both candidate operands (R104, R161). -/
theorem step_ret (hs : s.halted = false) (hop : memRead s.mem s.pc = .ok (opcodeMap .ret)) :
    step s = exec .ret (withEvents s (unreadReports s.pc 0)) :=
  stepWith_of_holdsBytes (i := .ret) opcodeMap_valid hs (holdsBytes_cons.2 ⟨hop, holdsBytes_nil s _⟩)

end

/-- Settles O36: RET splits on the increment passing 255, and the reports before it change neither SP nor memory. -/
theorem retPopsThePc : Obligations.RetPopsThePc := by
  refine ⟨rfl, fun s v hv => ?_⟩
  obtain rfl := State.top_of_memRead hv
  refine ⟨exec_ret, exec_ret_past, fun hs hop hsp => ?_⟩
  rw [step_ret hs hop, exec_ret (s := withEvents s _) hsp]
  rfl

end Sys2Proof.Machine
end

section
/-! PROOFS, family 44_call_return. CALL, and the RET that returns from it (R162). -/

namespace Sys2Proof.Machine

section
variable {s : State}

/-- What a completed CALL found, and the state it left (R160). -/
theorem Completes.eq_called {rA : Byte} {t : State} (h : Completes (.call rA) s t) :
    1 ≤ (s.reg .sp).toNat ∧ s.pc + 2 ≤ 255 ∧ ∃ r, t = s.called r := by
  obtain ⟨r, -, haddr, hpc, rfl⟩ := h
  exact ⟨Nat.pos_of_ne_zero (mt State.pushAddr_neg.2 (Int.not_lt.2 haddr)), hpc, r, rfl⟩

/-- After a completed CALL the byte at SP is the return address (R160). -/
theorem State.memRead_called_sp (r : Reg) (hm : s.mem.wf) (hsp : 1 ≤ (s.reg .sp).toNat) :
    memRead (s.called r).mem ((s.called r).reg .sp).toNat = .ok (BitVec.ofNat 8 (s.pc + 2)) := by
  have haddr : (((s.called r).reg .sp).toNat : Int) = s.pushAddr := by
    rw [State.called_sp r hsp, Int.natCast_sub hsp]
    rfl
  rw [haddr, State.memRead_called_self r hm hsp]

/-- A RET that finds SP and the byte there as a completed CALL left them jumps to the return address, gives SP its value
before the CALL and changes nothing else (R162). -/
theorem exec_ret_of_called {u : State} (r : Reg) (hm : s.mem.wf) (hsp : 1 ≤ (s.reg .sp).toNat) (hpc : s.pc + 2 ≤ 255)
    (hreg : u.reg .sp = (s.called r).reg .sp)
    (hmem : memRead u.mem (u.reg .sp).toNat = memRead (s.called r).mem ((s.called r).reg .sp).toNat) :
    exec .ret u = .next ((u.setReg .sp (s.reg .sp)).setPc (s.pc + 2)) := by
  have hlt := (s.reg .sp).isLt
  have hdec : (u.reg .sp).toNat = (s.reg .sp).toNat - 1 := hreg ▸ State.called_sp r hsp
  have hinc : (u.reg .sp).toNat + 1 = (s.reg .sp).toNat := by omega
  have htop : u.top = BitVec.ofNat 8 (s.pc + 2) := State.top_of_memRead (hmem.trans (State.memRead_called_sp r hm hsp))
  rw [exec_ret (by omega), hinc, htop, BitVec.ofNat_toNat, BitVec.setWidth_eq, BitVec.toNat_ofNat,
    Nat.mod_eq_of_lt (by omega)]

end

/-- Settles O44: a CALL that leaves no fault record has completed, and the RET undoes its decrement and reads its return
address back. -/
theorem callThenRetResumes : Obligations.CallThenRetResumes := by
  intro rA s t u hm _ h ht hreg hmem
  obtain ⟨hsp, hpc, r, rfl⟩ := (completes_of_fault_eq_none h ht).eq_called
  refine ⟨_, exec_ret_of_called r hm hsp hpc hreg hmem, rfl, ?sp, rfl⟩
  case sp => rw [State.reg_setPc, State.reg_setReg, if_pos rfl]

end Sys2Proof.Machine
end

section
/-! PROOFS, family 60_exceptions. What a step does after its operand reports: one precise machine fault, or an instruction
that completes with at most one event (R175, R177). -/

namespace Sys2Proof.Machine

/-- After its operand reports a step either raises a machine fault, and that is all it does, or completes an instruction. A
step that faults before any operand report is one whose reports are none. -/
theorem stepWith_raises_or_completes {m : OpcodeMap} {s t : State} (h : stepWith m s = .next t) :
    ∃ n, (∃ info, t = (withEvents s (unreadReports s.pc n)).raise info) ∨
      ∃ i, Completes i (withEvents s (unreadReports s.pc n)) t := by
  have hnone : withEvents s (unreadReports s.pc 2) = s := by rw [unreadReports_two, withEvents_nil]
  obtain ⟨-, ⟨-, ht⟩ | ⟨k, -, ht⟩ | ⟨op, -, ht⟩ | ⟨i, -, he⟩⟩ := stepWith_next h
  · exact ⟨2, .inl ⟨_, by rw [hnone, ht]⟩⟩
  · exact ⟨2, .inl ⟨_, by rw [hnone, ht]⟩⟩
  · exact ⟨0, .inl ⟨_, ht⟩⟩
  · rcases exec_next he with ⟨info, ht, -⟩ | hc
    · exact ⟨_, .inl ⟨info, ht⟩⟩
    · exact ⟨_, .inr ⟨i, hc⟩⟩

/-- Settles O15: the step recorded a fault where there was none, so it raised it, and a completed instruction would have left
the record alone. -/
theorem machineFaultsArePrecise : Obligations.MachineFaultsArePrecise := by
  intro m s t f hs h hf
  obtain ⟨n, ⟨info, rfl⟩ | ⟨i, hc⟩⟩ := stepWith_raises_or_completes h
  · obtain rfl := Option.some.inj hf
    exact ⟨rfl, rfl, rfl, rfl, rfl, n, rfl⟩
  · cases hs.symm.trans (hc.fault_eq.symm.trans hf)

/-- A completed instruction other than HLT emits nothing, or one event that does not end a run (R29). -/
theorem Completes.out_eq_or_append {i : Instr} {s t : State} (h : Completes i s t) (hi : i ≠ .hlt) :
    t.out = s.out ∨ ∃ e : Event, e.ends = false ∧ t.out = s.out ++ [e] := by
  cases i <;> simp only [Completes] at h
  case hlt => exact absurd rfl hi
  case prn => obtain ⟨a, -, rfl⟩ := h; exact .inr ⟨_, rfl, rfl⟩
  case pop =>
    obtain ⟨a, -, ⟨-, rfl⟩ | ⟨-, -, rfl⟩⟩ := h
    · exact .inr ⟨_, rfl, rfl⟩
    · exact .inl rfl
  case ldi => obtain ⟨a, -, rfl⟩ := h; exact .inl rfl
  case add | mul => obtain ⟨a, b, -, -, rfl⟩ := h; exact .inl rfl
  case push => obtain ⟨a, -, -, rfl⟩ := h; exact .inl (by simp)
  case call => obtain ⟨a, -, -, -, rfl⟩ := h; exact .inl (by simp)
  case ret => obtain ⟨-, rfl⟩ := h; exact .inl rfl

/-- A step that had emitted `out` with its operand reports ended in `t` with the events `es` (R177). -/
structure EndsStep (out : List Event) (t : State) (es : List Event) : Prop where
  /-- The events are the last of the output. -/
  out_eq : t.out = out ++ es
  /-- There is at most one. -/
  length_le : es.length ≤ 1
  /-- The machine is halted exactly when it ends a run. -/
  halted_iff : t.halted = true ↔ ∃ e ∈ es, e.ends = true
  /-- A fault notice is that of the recorded fault. -/
  notice : ∀ f, .faultNotice f ∈ es → t.fault = some f

section
variable {out : List Event} {t : State}

theorem EndsStep.silent (hout : t.out = out) (ht : t.halted = false) : EndsStep out t [] where
  out_eq := by rw [hout, List.append_nil]
  length_le := Nat.zero_le 1
  halted_iff := by simp [ht]
  notice _ h := absurd h List.not_mem_nil

theorem EndsStep.event {e : Event} (hout : t.out = out ++ [e]) (ht : t.halted = e.ends)
    (hf : ∀ f, e = .faultNotice f → t.fault = some f) : EndsStep out t [e] where
  out_eq := hout
  length_le := Nat.le_refl 1
  halted_iff := by simp [ht]
  notice f h := hf f (List.mem_singleton.1 h).symm

end

/-- A machine fault ends the step with its notice (R175). -/
theorem State.raise_endsStep (s : State) (info : FaultInfo) :
    EndsStep s.out (s.raise info) [.faultNotice ⟨s.pc, info⟩] :=
  .event rfl rfl fun f hf => by cases hf; rfl

/-- HLT ends the step of a running machine with the halt notice, any other completed instruction with at most one event that
leaves the machine running. -/
theorem Completes.endsStep {i : Instr} {s t : State} (h : Completes i s t) (hs : s.halted = false) :
    ∃ es, EndsStep s.out t es := by
  by_cases hi : i = .hlt
  · subst hi
    cases h
    exact ⟨[.haltNotice], .event rfl rfl nofun⟩
  · have ht : t.halted = false := (h.halted_eq hi).trans hs
    obtain hout | ⟨e, he, hout⟩ := h.out_eq_or_append hi
    · exact ⟨[], .silent hout ht⟩
    · exact ⟨[e], .event hout (ht.trans he.symm) fun f hf => by subst hf; cases he⟩

/-- Settles O16: at most two operand reports, and after them the notice of a fault or what the completed instruction emits. -/
theorem stepEventsAreReportsThenOneEvent : Obligations.StepEventsAreReportsThenOneEvent := by
  intro m s t h
  have hs := (stepWith_next h).1
  obtain ⟨n, hstep⟩ := stepWith_raises_or_completes h
  have hends : ∃ es, EndsStep (withEvents s (unreadReports s.pc n)).out t es := by
    obtain ⟨info, rfl⟩ | ⟨i, hc⟩ := hstep
    · exact ⟨_, State.raise_endsStep _ info⟩
    · exact hc.endsStep hs
  obtain ⟨es, hout, hlen, hhalted, hnotice⟩ := hends
  exact ⟨n, es, hout, unreadReports_length _ _, hlen, hhalted, hnotice⟩

end Sys2Proof.Machine
end

section
/-! PROOFS, family 70_reset_and_hazards. The machine at construction (R200). -/

namespace Sys2Proof.Machine

/-- Every address of memory reads 0 at construction (R200). -/
theorem memRead_construct (init : Vector Byte 7) {a : Int} (ha : 0 ≤ a ∧ a ≤ 255) :
    memRead (State.construct init).mem a = .ok 0 := memRead_in ha

/-- R0-R6 hold the draw at construction (R25, R200). -/
theorem State.reg_construct (init : Vector Byte 7) (i : Fin 7) : (State.construct init).reg i.castSucc = init[i] :=
  Vector.getElem_push_lt i.isLt

/-- SP is the empty-stack sentinel at construction (R24, R200). -/
theorem State.sp_construct (init : Vector Byte 7) : (State.construct init).reg .sp = Config.spInit :=
  Vector.getElem_push_eq

/-- Settles O21: construction meets the invariants for any draw, and reset is the draw of zeros. -/
theorem constructionMeetsTheInvariants : Obligations.ConstructionMeetsTheInvariants :=
  ⟨State.construct_inv, State.construct_inv _⟩

/-- Settles O26: memory lists no cell, the registers are the draw with SP behind it, and the rest is by definition. -/
theorem constructionState : Obligations.ConstructionState := fun init =>
  ⟨fun _ => memRead_construct init, State.reg_construct init, State.sp_construct init, rfl, rfl, rfl, rfl⟩

end Sys2Proof.Machine
end

section
/-! PROOFS, family 70_reset_and_hazards. What a load leaves in memory, and the first step on an empty image (R202). -/

namespace Sys2Proof.Machine

/-- Placing bytes leaves every address outside them as it was. -/
theorem State.memRead_place_outside (s : State) {p a : Nat} {bytes : List Byte} (h : a < p ∨ p + bytes.length ≤ a) :
    memRead (s.place p bytes).mem a = memRead s.mem a := by
  induction bytes generalizing s p with
  | nil => rfl
  | cons b rest ih =>
    rw [List.length_cons] at h
    rw [State.place, ih _ (by omega)]
    exact memRead_store_ne s b (by omega)

/-- Bytes placed inside memory are read back. -/
theorem State.holdsBytes_place {s : State} (hm : s.mem.wf) {p : Nat} {bytes : List Byte}
    (hfit : p + bytes.length ≤ 256) : holdsBytes (s.place p bytes) p bytes := by
  induction bytes generalizing s p with
  | nil => exact holdsBytes_nil s p
  | cons b rest ih =>
    rw [List.length_cons] at hfit
    refine holdsBytes_cons.2 ⟨?head, ih (State.store_wf hm p b) (by omega)⟩
    case head =>
      rw [State.place, State.memRead_place_outside _ (.inl (Nat.lt_succ_self p))]
      exact memRead_store_self hm (by omega) b

/-- An image of at most 256 bytes is placed from address 0 (R202). -/
theorem State.load_of_length_le (s : State) {image : List Byte} (h : image.length ≤ 256) :
    s.load image = some (s.place 0 image) := if_pos h

/-- A longer image is refused (R202, D17). -/
theorem State.load_of_lt_length (s : State) {image : List Byte} (h : 256 < image.length) : s.load image = none :=
  if_neg (Nat.not_le.2 h)

/-- After the load of an image, an address reads the image's byte there, and 0 past its end (R202). -/
theorem memRead_place_construct (init : Vector Byte 7) {image : List Byte} (hfit : image.length ≤ 256) {a : Nat}
    (ha : a ≤ 255) : memRead ((State.construct init).place 0 image).mem a = .ok (image.getD a 0) := by
  by_cases hin : a < image.length
  · have hread := State.holdsBytes_place (State.construct_inv init).memWf (p := 0) (by omega) a hin
    rwa [Nat.zero_add, ← List.getD_eq_getElem image 0 hin] at hread
  · rw [State.memRead_place_outside _ (.inr (by omega)), memRead_construct init (by omega),
      List.getD_eq_default image 0 (Nat.not_lt.1 hin)]

/-- With memory still 0 everywhere, the first step finds no handler for the byte 0 (R105, R202). -/
theorem step_construct (init : Vector Byte 7) :
    step (State.construct init) = .next (faulted (State.construct init) (.unrecognizedInstruction 0)) := by
  have hop : memRead (State.construct init).mem (State.construct init).pc = .ok 0 :=
    memRead_construct init (a := 0) (by decide)
  have hreports : unreadReports (State.construct init).pc 0 = [] := unreadReports_eq_nil (Nat.zero_le 253) 0
  rw [step, stepWith_unrecognized rfl hop (by decide), hreports, withEvents_nil, State.raise_eq_faulted]

/-- Settles O27: the load places the image on memory that reads 0, and with no byte placed the first step is that of the
machine at construction. -/
theorem loadPlacesTheImage : Obligations.LoadPlacesTheImage := by
  intro init image
  refine ⟨fun hfit => ?loaded, State.load_of_lt_length _, ?empty⟩
  case loaded =>
    exact ⟨_, State.load_of_length_le _ hfit, State.place_frame .., fun a => memRead_place_construct init hfit⟩
  case empty => exact ⟨_, State.load_of_length_le _ (Nat.zero_le 256), step_construct init⟩

end Sys2Proof.Machine
end

section
/-! PROOFS, family 70_reset_and_hazards. PUSH and CALL over their own operand byte (R206). -/

namespace Sys2Proof.Machine

/-- With three bytes left from pc on, the step is the instruction encoded there and nothing else (R104, R107). -/
theorem step_of_holdsBytes {s : State} {i : Instr} (hs : s.halted = false) (hp : s.pc ≤ 253)
    (h : holdsBytes s s.pc (encode i)) : step s = exec i s := by
  obtain ⟨hstep, hreports⟩ := instructionInMemoryIsExecuted opcodeMap opcodeMap_valid s i hs h
  exact hstep.trans (congrArg (exec i) (hreports hp))

/-- Two bytes in memory, one after the other. -/
theorem holdsBytes_pair {s : State} {a : Nat} {b c : Byte} (hb : memRead s.mem a = .ok b)
    (hc : memRead s.mem (a + 1 : Nat) = .ok c) : holdsBytes s a [b, c] :=
  holdsBytes_cons.2 ⟨hb, holdsBytes_cons.2 ⟨hc, holdsBytes_nil s _⟩⟩

/-- Settles O46: the step executes the instruction as latched, which reads its register as it was, SP being another, and
stores at SP - 1, its own operand byte. -/
theorem operandsAreLatchedBeforeTheWrite : Obligations.OperandsAreLatchedBeforeTheWrite := by
  intro r s hr hs hm hp hsp hoperand
  have hslot : slot (BitVec.ofNat 8 r) = some r := slot_eq_some.2 (Nat.mod_eq_of_lt (by omega))
  have hpos : 1 ≤ (s.reg .sp).toNat := by omega
  have haddr : ((s.pc + 1 : Nat) : Int) = s.pushAddr := by rw [State.pushAddr, hsp]; omega
  have hne : r.val ∉ [7] := by rw [List.mem_singleton]; omega
  refine ⟨fun hop => ?push, fun hop => ?call⟩
  case push =>
    have hexec := exec_push hslot hpos
    have hstep : step s = exec (.push (BitVec.ofNat 8 r)) s := step_of_holdsBytes hs hp (holdsBytes_pair hop hoperand)
    have hreg : (s.pushed r).reg r = s.reg r := onlyListedSlotsAreWritten _ _ _ r hexec hne
    refine ⟨_, hstep.trans hexec, s.pushed_pc r, ?_⟩
    rw [haddr, State.memRead_pushed_self r hm hpos, hreg]
  case call =>
    have hexec := exec_call hslot hpos (by omega)
    have hstep : step s = exec (.call (BitVec.ofNat 8 r)) s := step_of_holdsBytes hs hp (holdsBytes_pair hop hoperand)
    have hreg : (s.called r).reg r = s.reg r := onlyListedSlotsAreWritten _ _ _ r hexec hne
    refine ⟨_, hstep.trans hexec, ?_, ?_⟩
    · rw [State.called_pc, hreg]
    · rw [haddr, State.memRead_called_self r hm hpos]

end Sys2Proof.Machine
end

section
/-! PROOFS, family 70_reset_and_hazards. The two ways a run can end (R210). -/

namespace Sys2Proof.Machine

/-- A step that halts the machine and leaves no fault record is a HLT that completed (R110, R210). -/
theorem completes_hlt_of_stepWith {m : OpcodeMap} {s t : State} (h : stepWith m s = .next t) (hf : t.fault = none)
    (ht : t.halted = true) :
    decodeWith m s.fetch = .instr .hlt ∧ Completes .hlt (withEvents s (unreadReports s.pc 0)) t := by
  obtain ⟨i, hd, hc⟩ := completes_of_stepWith h hf
  by_cases hi : i = .hlt
  · subst hi
    exact ⟨hd, hc⟩
  · have hrun : t.halted = false := (hc.halted_eq hi).trans (stepWith_next h).1
    rw [hrun] at ht
    cases ht

/-- A machine that meets the invariants and is halted has its notice as its last event (R113). -/
theorem Inv.getLast_out {s : State} (h : Inv s) (hs : s.halted = true) :
    s.out.getLast? = some (lastNotice s.fault) := by
  obtain ⟨earlier, -, hout⟩ := h.haltedOut hs
  rw [hout, List.getLast?_concat]

/-- Settles O23: the step keeps the invariants, which name the last event; a step that recorded a fault was precise, and
any other that halts is a HLT. -/
theorem runEndsNormallyOrFaulted : Obligations.RunEndsNormallyOrFaulted := by
  intro m s t hinv h ht
  have hlast := (everyStepKeepsTheInvariants m s t hinv h).getLast_out ht
  cases hf : t.fault with
  | none =>
    obtain ⟨hd, hc⟩ := completes_hlt_of_stepWith h hf ht
    obtain ⟨hop, -⟩ := holdsBytes_cons.1 (holdsBytes_of_decodeWith hd)
    rw [hf] at hlast
    exact .inl ⟨⟨ht, hf⟩, hlast, hc.pc_eq nofun nofun, hop⟩
  | some f =>
    have hnone := hinv.fault_eq_none (stepWith_next h).1
    obtain ⟨-, -, hpc, -⟩ := machineFaultsArePrecise m s t f hnone h hf
    rw [hf] at hlast
    exact .inr ⟨⟨ht, hf ▸ Option.some_ne_none f⟩, hpc, f, rfl, hlast⟩

end Sys2Proof.Machine
end
